-- ==== Sys2Proof/Word.lean ====
section
/-! DEFINITION. The machine's one width: a byte. Registers, memory cells, addresses, immediates, flags and
opcodes are all 8-bit unsigned values (00_scope.md R14; 20_memory.md R43). Its arithmetic (R15) stands in
Machine/Arith.lean. -/

namespace Sys2Proof

/-- An 8-bit value; bit 7 is the most significant (R14). -/
abbrev Byte := BitVec 8

/-- The number of one of the eight general registers (10_state.md R21). -/
abbrev RegIdx := Fin 8

end Sys2Proof
end

