-- ==== Sys2Proof/Machine/Arith.lean ====
section
/-! DEFINITION. The arithmetic helpers of 00_scope.md R15: the exact integer result, then modulo 256. -/

namespace Sys2Proof.Machine

/-- `add8(a,b) = (a + b) mod 256` (R15). -/
def add8 (a b : Byte) : Byte := BitVec.ofNat 8 (a.toNat + b.toNat)

/-- `sub8(a,b) = (a - b) mod 256`, the result in 0 to 255 (R15). -/
def sub8 (a b : Byte) : Byte := BitVec.ofInt 8 ((a.toNat : Int) - (b.toNat : Int))

/-- `mul8(a,b) = (a * b) mod 256`: the low byte of the product (R15, R121). -/
def mul8 (a b : Byte) : Byte := BitVec.ofNat 8 (a.toNat * b.toNat)

/-- `div8(a,b) = floor(a / b)`, unsigned (R15, R126; D7). DIV never calls it with `b = 0`. -/
def div8 (a b : Byte) : Byte := BitVec.ofNat 8 (a.toNat / b.toNat)

/-- `inc8(a) = add8(a,1)` (R15). -/
def inc8 (a : Byte) : Byte := add8 a 1

/-- `dec8(a) = sub8(a,1)` (R15). -/
def dec8 (a : Byte) : Byte := sub8 a 1

end Sys2Proof.Machine
end

