-- ==== Sys2Proof/Config.lean ====
section
/-! DEFINITION. The fixed parameters of this hardware (00_scope.md R13). The spec decides every point its
source leaves open (92_eei_decisions.md), so there is no free value and no opaque constant here. -/

namespace Sys2Proof.Config

/-- SP_INDEX: the general register that is the stack pointer (R13, R22). -/
def spIndex : RegIdx := 7

/-- SP_RESET: the stack pointer after reset (R13, R37). -/
def spReset : Byte := 0xF4

/-- PC_RESET: the program counter after reset (R13, R37; the spec's decision D10). -/
def pcReset : Byte := 0x00

/-- What R0 to R6 hold after reset (R13, R37; D10). -/
def regReset : Byte := 0x00

/-- What FL holds after reset: no flag set (R13, R37; D10). -/
def flReset : Byte := 0x00

/-- What a memory cell reads as that neither the image nor a store has written (R13, R37; D10). -/
def memReset : Byte := 0x00

/-- MEMSIZE: the number of memory cells, and the longest program image (R13, R34, R142). -/
def memSize : Nat := 256

end Sys2Proof.Config
end

