-- ==== Sys2Proof/Machine/State.lean ====
section
/-! DEFINITION. The complete architectural state (10_state.md R20) and its reset value (R37). IR and the
operand bytes are no state (R35), and nothing else is hidden (R36). -/

namespace Sys2Proof.Machine

/-- The register file R0 to R7 (R21); `r7` is the stack pointer, the same cell (R22). -/
structure Regs where
  r0 : Byte
  r1 : Byte
  r2 : Byte
  r3 : Byte
  r4 : Byte
  r5 : Byte
  r6 : Byte
  r7 : Byte
  deriving DecidableEq, Repr

/-- The three kinds of fault the hardware itself latches (60_exceptions.md R150). -/
inductive FaultKind where
  /-- Raised by DIV when the divisor register holds 0 (R151). -/
  | divideByZero
  /-- Raised by an ALU-class opcode with no operation (R152). -/
  | aluDecode
  /-- Raised by an access to a register through an operand byte above 7 (R153). -/
  | registerIndex
  deriving DecidableEq, Repr

/-- The running flag and the fault latch (R31). -/
inductive Status where
  /-- The source's running flag is true. -/
  | running
  /-- Stopped by HLT (R111). -/
  | halted
  /-- Stopped by a fault of kind `kind`; `info` is the byte recorded with it (R150, R154). -/
  | faulted (kind : FaultKind) (info : Byte)
  deriving DecidableEq, Repr

/-- The 256 cells as (address, byte) pairs in one canonical form (`Memory.wf` of Machine/Ops.lean): addresses
strictly rising and below 256, no entry equal to `Config.memReset`, which an unlisted address reads as. -/
abbrev Memory := List Host.Cell

/-- The machine state, field by field as R20 lists it. -/
structure State where
  /-- The general registers `x[0]` to `x[7]`. -/
  regs : Regs
  /-- The program counter: the address of the opcode byte of the next instruction (R25). -/
  pc : Byte
  /-- The flags byte: E bit 0, G bit 1, L bit 2 (R28). -/
  fl : Byte
  /-- Running, Halted or Faulted (R31). -/
  status : Status
  /-- The one flat memory of 256 bytes (R34). -/
  mem : Memory
  /-- The output stream, oldest event first (R144). -/
  out : List Byte
  deriving DecidableEq, Repr

/-- Why `step` answers no next state. Neither is raised by an instruction: a fault of the hardware is a next
state whose status is `Status.faulted` (R17, R156). -/
inductive Fault where
  /-- Raised by `step` alone, in status Halted: the engine takes no step and the run has ended (R80, R90). Safe:
  the hardware does nothing there either. -/
  | engineHalted
  /-- Raised by `step` alone, in status Faulted: the engine takes no step (R80, R156, R157); it repeats the
  latched kind and information. Safe: the hardware does nothing there either. -/
  | engineFaulted (kind : FaultKind) (info : Byte)
  deriving DecidableEq, Repr

/-- Why a request has no meaning in the model. -/
inductive Refusal where
  /-- Raised by `exec` for an instruction without a meaning; no arm raises it in this model. Safe. -/
  | notModelled (mnemonic : String)
  /-- Raised by `applyReset` for an image longer than the memory, which the spec refuses at the interface
  (50_interfaces.md R142). Safe. -/
  | imageTooLong
  deriving DecidableEq, Repr

/-- The machine right after reset with the empty image: `Reset(img)` of R37 for `n = 0` (allowed by R142), so
memory lists nothing and reads as zero everywhere. -/
def State.reset : State where
  regs :=
    { r0 := Config.regReset, r1 := Config.regReset, r2 := Config.regReset, r3 := Config.regReset,
      r4 := Config.regReset, r5 := Config.regReset, r6 := Config.regReset, r7 := Config.spReset }
  pc := Config.pcReset
  fl := Config.flReset
  status := .running
  mem := []
  out := []

end Sys2Proof.Machine
end

