-- ==== Sys2Proof/Machine/Ops.lean ====
section
/-! DEFINITION. The named operations over registers, memory, pc, stack pointer, output and status, and `raise`,
the taking of a fault (60_exceptions.md R156). There is no return from a fault (R157): only reset leaves it. -/

namespace Sys2Proof.Machine

/-- What a meaning answers. -/
abbrev Result : Type := Host.Outcome State Fault Refusal

/-! ## General registers (10_state.md R21, R22) -/

/-- The content of register `i`. -/
def Regs.get (r : Regs) (i : RegIdx) : Byte :=
  match i with
  | 0 => r.r0
  | 1 => r.r1
  | 2 => r.r2
  | 3 => r.r3
  | 4 => r.r4
  | 5 => r.r5
  | 6 => r.r6
  | 7 => r.r7

/-- The register file with `v` in register `i`. -/
def Regs.set (r : Regs) (i : RegIdx) (v : Byte) : Regs :=
  match i with
  | 0 => { r with r0 := v }
  | 1 => { r with r1 := v }
  | 2 => { r with r2 := v }
  | 3 => { r with r3 := v }
  | 4 => { r with r4 := v }
  | 5 => { r with r5 := v }
  | 6 => { r with r6 := v }
  | 7 => { r with r7 := v }

/-- `x[i]` (R16). No register is hardwired or read-only (R21). -/
def State.getReg (s : State) (i : RegIdx) : Byte := s.regs.get i

/-- `x[i] <- v` (R16). -/
def State.setReg (s : State) (i : RegIdx) (v : Byte) : State := { s with regs := s.regs.set i v }

/-- The stack pointer, which is `x[7]` (R22). -/
def State.sp (s : State) : Byte := s.getReg Config.spIndex

/-- A write of the stack pointer, which is a write of `x[7]` (R22). -/
def State.setSp (s : State) (v : Byte) : State := s.setReg Config.spIndex v

/-! ## Memory (20_memory.md R40 to R42) -/

/-- The byte at a cell number; a cell that is not listed reads as its reset content (R37). -/
def Memory.read (m : Memory) (a : Nat) : Byte :=
  match m with
  | [] => Config.memReset
  | c :: m => if c.1 = a then c.2 else Memory.read m a

/-- The memory without any entry for `a`. -/
def Memory.erase (m : Memory) (a : Nat) : Memory :=
  match m with
  | [] => []
  | c :: m => if c.1 = a then Memory.erase m a else c :: Memory.erase m a

/-- The memory with an entry for `a` put before the first greater address. -/
def Memory.insert (m : Memory) (a : Nat) (v : Byte) : Memory :=
  match m with
  | [] => [(a, v)]
  | c :: m => if a < c.1 then (a, v) :: c :: m else c :: Memory.insert m a v

/-- `MemWrite`: cell `a` holds `v`, no other cell changes (R42). Writing what an unlisted cell reads as removes
the entry, so the canonical form is kept. -/
def Memory.write (m : Memory) (a : Nat) (v : Byte) : Memory :=
  if v = Config.memReset then Memory.erase m a else Memory.insert (Memory.erase m a) a v

/-- The canonical form from cell number `lo` on. -/
def Memory.wfFrom (lo : Nat) (m : Memory) : Bool :=
  match m with
  | [] => true
  | c :: m => decide (lo ≤ c.1) && decide (c.1 < Config.memSize) && c.2 != Config.memReset && Memory.wfFrom (c.1 + 1) m

/-- The canonical form: addresses strictly rising and below 256, no entry equal to the reset content. -/
def Memory.wf (m : Memory) : Bool := Memory.wfFrom 0 m

/-- `MemRead(a, 1)`: it always succeeds and has no side effect (R41, R46). -/
def State.readMem (s : State) (a : Byte) : Byte := Memory.read s.mem a.toNat

/-- `MemWrite(a, 1, v)`: it always succeeds; any cell may be written (R42). -/
def State.writeMem (s : State) (a v : Byte) : State := { s with mem := Memory.write s.mem a.toNat v }

/-! ## The stack (R48) and the program counter (R25, R26) -/

/-- The cell a PUSH or CALL writes: the decremented stack pointer, wrapping at 0 (R45, R52 W4). -/
def State.pushAddress (s : State) : Byte := dec8 s.sp

/-- `pc <- t` (R16). -/
def State.setPc (s : State) (t : Byte) : State := { s with pc := t }

/-- `add8(pc, n)`: with the length of the instruction, the address after it (R26, R52 W2 and W3). -/
def State.pcPlus (s : State) (n : Byte) : Byte := add8 s.pc n

/-- Sequential advance over `n` bytes (R26, R52 W2). -/
def State.advance (s : State) (n : Byte) : State := s.setPc (s.pcPlus n)

/-! ## Flags register, output port, status -/

/-- `FL <- v`: the whole byte (R29). -/
def State.setFl (s : State) (v : Byte) : State := { s with fl := v }

/-- `Out(v)`: one more event at the end of the output stream (50_interfaces.md R144, R145). -/
def State.emit (s : State) (v : Byte) : State := { s with out := s.out ++ [v] }

/-- `status <- v`. -/
def State.setStatus (s : State) (v : Status) : State := { s with status := v }

/-- `raise K(info)` (R16, R156): the step is abandoned, every register, memory cell, pc, FL and the output stream
as they were before it, and the status latches the fault. It is called on the state at the start of the step. -/
def raise (k : FaultKind) (info : Byte) (s : State) : Result :=
  .next (s.setStatus (.faulted k info))

end Sys2Proof.Machine
end

