-- ==== Sys2Proof/Machine/Flags.lean ====
section
/-! DEFINITION. The flags byte (10_state.md R28, R29): E bit 0, G bit 1, L bit 2, the other bits zero. The bit
places are the spec's decision D9; no program can observe them. -/

namespace Sys2Proof.Machine

/-- Only E set. -/
def flagsEqual : Byte := 0b00000001

/-- Only G set. -/
def flagsGreater : Byte := 0b00000010

/-- Only L set. -/
def flagsLess : Byte := 0b00000100

/-- Bit E, the one flag an instruction reads (R28, R115, R116). -/
def State.flagE (s : State) : Bool := s.fl.getLsbD 0

/-- Bit G; no instruction reads it (R28). -/
def State.flagG (s : State) : Bool := s.fl.getLsbD 1

/-- Bit L; no instruction reads it (R28). -/
def State.flagL (s : State) : Bool := s.fl.getLsbD 2

/-- The whole flags byte after comparing `a` with `b`, unsigned (43_alu.md R127; D8). -/
def compareFlags (a b : Byte) : Byte :=
  if a = b then flagsEqual
  else if b.toNat < a.toNat then flagsGreater
  else flagsLess

/-- A value FL ever holds: no compare yet, E, G or L (R30). -/
def legalFlags (f : Byte) : Bool :=
  f == 0 || f == flagsEqual || f == flagsGreater || f == flagsLess

end Sys2Proof.Machine
end

