-- ==== Sys2Proof/Machine/Operands.lean ====
section
/-! DEFINITION. The operand forms (30_encoding.md R61, R64): a register operand is a whole byte, checked when
the instruction accesses the register (10_state.md R23). Every check is made before the first state change, so
an instruction is written as a check followed by what it does with the register numbers. -/

namespace Sys2Proof.Machine

/-- The register an operand byte names, `none` above 7 (R23, R64; D5). -/
def regIndex? (b : Byte) : Option RegIdx :=
  if h : b.toNat < 8 then some ⟨b.toNat, h⟩ else none

/-- One checked register operand (formats R and RI): a byte above 7 raises `RegisterIndex` with that byte. -/
def withReg (b : Byte) (s : State) (k : RegIdx → Result) : Result :=
  match regIndex? b with
  | none => raise .registerIndex b s
  | some i => k i

/-- Two checked register operands (format RR), `a` first (43_alu.md R120; 60_exceptions.md R155). -/
def withRegs (a b : Byte) (s : State) (k : RegIdx → RegIdx → Result) : Result :=
  withReg a s fun i => withReg b s fun j => k i j

end Sys2Proof.Machine
end

