-- ==== Sys2Proof/Machine/Alu.lean ====
section
/-! DEFINITION. ADD, SUB, MUL, DIV, CMP (43_alu.md R120 to R129). Both indices are checked, `a` first, before
anything else; the four arithmetic operations write `x[a]` alone and leave FL; CMP writes FL alone. -/

namespace Sys2Proof.Machine

/-- The shared shape of ADD, SUB and MUL: both operands are read before the one write (R120, R128). -/
def arith (f : Byte → Byte → Byte) (a b : Byte) (s : State) : Result :=
  withRegs a b s fun i j => .next ((s.setReg i (f (s.getReg i) (s.getReg j))).advance 3)

/-- ADD (R123). -/
def execAdd (a b : Byte) (s : State) : Host.Outcome State Fault Refusal :=
  arith add8 a b s

/-- SUB (R124). -/
def execSub (a b : Byte) (s : State) : Host.Outcome State Fault Refusal :=
  arith sub8 a b s

/-- MUL (R125). -/
def execMul (a b : Byte) (s : State) : Host.Outcome State Fault Refusal :=
  arith mul8 a b s

/-- DIV (R126): a zero divisor raises `DivideByZero` with the address of the DIV, after both index checks. -/
def execDiv (a b : Byte) (s : State) : Host.Outcome State Fault Refusal :=
  withRegs a b s fun i j =>
    if s.getReg j = 0 then raise .divideByZero s.pc s
    else .next ((s.setReg i (div8 (s.getReg i) (s.getReg j))).advance 3)

/-- CMP (R127): the whole flags byte is overwritten. -/
def execCmp (a b : Byte) (s : State) : Host.Outcome State Fault Refusal :=
  withRegs a b s fun i j => .next ((s.setFl (compareFlags (s.getReg i) (s.getReg j))).advance 3)

end Sys2Proof.Machine
end

