-- ==== Sys2Proof/Machine/ControlFlow.lean ====
section
/-! DEFINITION. HLT, CALL, RET, JMP, JEQ, JNE (42_control_flow.md R110 to R116). Targets are absolute. -/

namespace Sys2Proof.Machine

/-- HLT (R111): the status becomes Halted, pc keeps addressing the HLT byte. -/
def execHlt (s : State) : Host.Outcome State Fault Refusal :=
  .next (s.setStatus .halted)

/-- CALL (R112): the return address `pc + 2` is pushed, then the target is read from the register. -/
def execCall (r : Byte) (s : State) : Host.Outcome State Fault Refusal :=
  withReg r s fun i =>
    let s₁ := s.setSp s.pushAddress
    .next ((s₁.writeMem s.pushAddress (s.pcPlus 2)).setPc (s₁.getReg i))

/-- RET (R113): pc from the top of the stack, then the stack pointer is incremented. -/
def execRet (s : State) : Host.Outcome State Fault Refusal :=
  .next ((s.setPc (s.readMem s.sp)).setSp (inc8 s.sp))

/-- JMP (R114). -/
def execJmp (r : Byte) (s : State) : Host.Outcome State Fault Refusal :=
  withReg r s fun i => .next (s.setPc (s.getReg i))

/-- The two ways of a conditional jump: taken, the register is accessed and checked; not taken, it is not
accessed and cannot raise (R23, R115, R116). -/
def branchIf (c : Bool) (r : Byte) (s : State) : Result :=
  if c then withReg r s fun i => .next (s.setPc (s.getReg i)) else .next (s.advance 2)

/-- JEQ (R115): taken when E is set. -/
def execJeq (r : Byte) (s : State) : Host.Outcome State Fault Refusal :=
  branchIf s.flagE r s

/-- JNE (R116): taken when E is clear. -/
def execJne (r : Byte) (s : State) : Host.Outcome State Fault Refusal :=
  branchIf (!s.flagE) r s

end Sys2Proof.Machine
end

