-- ==== Sys2Proof/Machine/DataMovement.lean ====
section
/-! DEFINITION. LDI, PRN, PUSH, POP (41_data_movement.md R100 to R103). The order of the sub-operations is the
listed one; it matters only when the operand is register 7 (D14). -/

namespace Sys2Proof.Machine

/-- LDI (R100): the immediate goes to the register unchanged (R65). -/
def execLdi (r v : Byte) (s : State) : Host.Outcome State Fault Refusal :=
  withReg r s fun i => .next ((s.setReg i v).advance 3)

/-- PRN (R101): one output event. -/
def execPrn (r : Byte) (s : State) : Host.Outcome State Fault Refusal :=
  withReg r s fun i => .next ((s.emit (s.getReg i)).advance 2)

/-- PUSH (R102): the stack pointer is decremented, then the register is read and stored at the new top. -/
def execPush (r : Byte) (s : State) : Host.Outcome State Fault Refusal :=
  withReg r s fun i =>
    let s₁ := s.setSp s.pushAddress
    .next ((s₁.writeMem s.pushAddress (s₁.getReg i)).advance 2)

/-- POP (R103): the register is written with the byte on top, then the stack pointer is incremented. -/
def execPop (r : Byte) (s : State) : Host.Outcome State Fault Refusal :=
  withReg r s fun i =>
    let s₁ := s.setReg i (s.readMem s.sp)
    .next ((s₁.setSp (inc8 s₁.sp)).advance 2)

end Sys2Proof.Machine
end

