-- ==== Sys2Proof/Machine/Unrecognised.lean ====
section
/-! DEFINITION. The opcodes that name no instruction (40_cycle.md R87, R88). -/

namespace Sys2Proof.Machine

/-- R88: an ALU-class opcode with no operation raises `AluDecode` with the opcode; the operand bytes are not
examined. -/
def execUnrecognisedAlu (op : Byte) (s : State) : Host.Outcome State Fault Refusal :=
  raise .aluDecode op s

/-- R87: a non-ALU opcode with no instruction is a silent no-op that does not advance pc. The step exists and
changes nothing, so the machine hangs there (R165). -/
def execUnrecognisedNonAlu (_op : Byte) (s : State) : Host.Outcome State Fault Refusal :=
  .next s

end Sys2Proof.Machine
end

