-- ==== Sys2Proof/Syntax.lean ====
section
/-! DEFINITION. The instruction set: one constructor per row of spec/opcode_table.json. Operands are whole
bytes (30_encoding.md R61, R64): a register operand may be any value 0 to 255, and whether it names a register
is checked by the instruction when it accesses the register (10_state.md R23). -/

namespace Sys2Proof

/-- One instruction as decoded. `op1`, `op2` of the spec are named by their role. -/
inductive Instr where
  /-- LDI (R100): load the immediate `v` into register `r`. -/
  | ldi (r v : Byte)
  /-- PRN (R101): emit register `r` on the output port. -/
  | prn (r : Byte)
  /-- HLT (R111). -/
  | hlt
  /-- PUSH (R102): push register `r`. -/
  | push (r : Byte)
  /-- POP (R103): pop into register `r`. -/
  | pop (r : Byte)
  /-- CALL (R112): call the address in register `r`. -/
  | call (r : Byte)
  /-- RET (R113). -/
  | ret
  /-- JMP (R114): jump to the address in register `r`. -/
  | jmp (r : Byte)
  /-- JEQ (R115): jump to the address in register `r` if E is set. -/
  | jeq (r : Byte)
  /-- JNE (R116): jump to the address in register `r` if E is clear. -/
  | jne (r : Byte)
  /-- ADD (R123). -/
  | add (a b : Byte)
  /-- SUB (R124). -/
  | sub (a b : Byte)
  /-- MUL (R125). -/
  | mul (a b : Byte)
  /-- DIV (R126). -/
  | div (a b : Byte)
  /-- CMP (R127). -/
  | cmp (a b : Byte)
  /-- An ALU-class opcode with no operation (R69, R88); `op` is the opcode byte. -/
  | unrecognisedAlu (op : Byte)
  /-- A non-ALU opcode with no instruction (R70, R87); `op` is the opcode byte. -/
  | unrecognisedNonAlu (op : Byte)
  deriving DecidableEq, Repr

end Sys2Proof
end

