-- ==== Sys2Proof/WellFormed.lean ====
section
/-! DEFINITION. Which terms of `Instr` are the reading of some bytes. The fifteen instructions admit every
operand byte (30_encoding.md R64, R65). The two classes admit exactly the opcode values that R69 and R70 list. -/

namespace Sys2Proof

/-- The 27 opcode values of R69, as that rule lists them. -/
def undefinedAluOpcode (op : Byte) : Bool :=
  op == 0xA4 || op == 0xA5 || op == 0xA6 || (0xA8 ≤ op && op ≤ 0xAF) || (0xB0 ≤ op && op ≤ 0xBF)

/-- The ten defined non-ALU opcode values, as R70 lists them. -/
def definedNonAluOpcodes : List Byte :=
  [0x01, 0x11, 0x45, 0x46, 0x47, 0x50, 0x54, 0x55, 0x56, 0x82]

/-- The 214 opcode values of R70: every value in 0x00 to 0x9F and 0xC0 to 0xFF except the ten defined ones. -/
def undefinedNonAluOpcode (op : Byte) : Bool :=
  (op ≤ 0x9F || 0xC0 ≤ op) && !definedNonAluOpcodes.contains op

/-- The check on a whole instruction. -/
def Instr.wf : Instr → Bool
  | .ldi _ _ => true
  | .prn _ => true
  | .hlt => true
  | .push _ => true
  | .pop _ => true
  | .call _ => true
  | .ret => true
  | .jmp _ => true
  | .jeq _ => true
  | .jne _ => true
  | .add _ _ => true
  | .sub _ _ => true
  | .mul _ _ => true
  | .div _ _ => true
  | .cmp _ _ => true
  | .unrecognisedAlu op => undefinedAluOpcode op
  | .unrecognisedNonAlu op => undefinedNonAluOpcode op

end Sys2Proof
end

