-- ==== Sys2Proof/Decode.lean ====
section
/-! DEFINITION. Decoding (40_cycle.md R83 to R89) and encoding (30_encoding.md R61, R67, R68). The engine
decodes the three bytes it has fetched and never refuses: every opcode value is one of the 15 instructions or
of one of the two classes. Decoding a list of bytes refuses, by name, a list too short for its opcode. -/

namespace Sys2Proof

/-- R83: the ALU class is `ir[7:5] = 0b101`, the values 0xA0 to 0xBF (D6). -/
def isAluClass (ir : Byte) : Bool :=
  ir.extractLsb' 5 3 == 0b101#3

/-- R84: the whole opcode byte against the five ALU opcodes of R68; none matches: R88. -/
def decodeAlu (ir op1 op2 : Byte) : Instr :=
  if ir = 0xA0 then .add op1 op2
  else if ir = 0xA1 then .sub op1 op2
  else if ir = 0xA2 then .mul op1 op2
  else if ir = 0xA3 then .div op1 op2
  else if ir = 0xA7 then .cmp op1 op2
  else .unrecognisedAlu ir

/-- R85: the whole opcode byte against the ten opcodes of R67; none matches: R87. -/
def decodeNonAlu (ir op1 op2 : Byte) : Instr :=
  if ir = 0x82 then .ldi op1 op2
  else if ir = 0x47 then .prn op1
  else if ir = 0x01 then .hlt
  else if ir = 0x45 then .push op1
  else if ir = 0x46 then .pop op1
  else if ir = 0x50 then .call op1
  else if ir = 0x11 then .ret
  else if ir = 0x54 then .jmp op1
  else if ir = 0x55 then .jeq op1
  else if ir = 0x56 then .jne op1
  else .unrecognisedNonAlu ir

/-- Classify and dispatch on the latched bytes (R86, R89): total, one reading for every opcode value. -/
def decodeFetched (ir op1 op2 : Byte) : Instr :=
  if isAluClass ir then decodeAlu ir op1 op2 else decodeNonAlu ir op1 op2

/-- The length in bytes (R62; column "len" of R67, R68). An unrecognised opcode has no length: the hardware
does not advance over it (R62, R70). -/
def Instr.length? : Instr → Option Nat
  | .ldi _ _ => some 3
  | .prn _ => some 2
  | .hlt => some 1
  | .push _ => some 2
  | .pop _ => some 2
  | .call _ => some 2
  | .ret => some 1
  | .jmp _ => some 2
  | .jeq _ => some 2
  | .jne _ => some 2
  | .add _ _ => some 3
  | .sub _ _ => some 3
  | .mul _ _ => some 3
  | .div _ _ => some 3
  | .cmp _ _ => some 3
  | .unrecognisedAlu _ => none
  | .unrecognisedNonAlu _ => none

/-- Why a list of bytes is not read as an instruction. The engine itself never meets either case, since it
always fetches three bytes (R81, R82). -/
inductive DecodeError where
  /-- The list is empty. -/
  | noOpcode
  /-- The list ends before the operand bytes of the opcode. -/
  | missingOperand (opcode : Byte)
  deriving DecidableEq, Repr

/-- How many operand bytes follow an opcode byte (R60, R62); none for an unrecognised one. -/
def operandCount (ir : Byte) : Nat :=
  match (decodeFetched ir 0 0).length? with
  | some n => n - 1
  | none => 0

/-- The instruction at the head of a list of bytes, the opcode first (R43, R60). Bytes past it are ignored. -/
def decode : List Byte → Except DecodeError Instr
  | [] => .error .noOpcode
  | ir :: rest =>
    if rest.length < operandCount ir then .error (.missingOperand ir)
    else .ok (decodeFetched ir (rest.getD 0 0) (rest.getD 1 0))

/-- The bytes of an instruction in increasing address order (R61, R67, R68). Of an unrecognised opcode only
the opcode byte is part of it (R62, R70). -/
def encode : Instr → List Byte
  | .ldi r v => [0x82, r, v]
  | .prn r => [0x47, r]
  | .hlt => [0x01]
  | .push r => [0x45, r]
  | .pop r => [0x46, r]
  | .call r => [0x50, r]
  | .ret => [0x11]
  | .jmp r => [0x54, r]
  | .jeq r => [0x55, r]
  | .jne r => [0x56, r]
  | .add a b => [0xA0, a, b]
  | .sub a b => [0xA1, a, b]
  | .mul a b => [0xA2, a, b]
  | .div a b => [0xA3, a, b]
  | .cmp a b => [0xA7, a, b]
  | .unrecognisedAlu op => [op]
  | .unrecognisedNonAlu op => [op]

/-- Byte number `k` of a table word of `nbits` bits: bits `8k+7` down to `8k`, zero above `nbits`. -/
def tableByte (nbits w k : Nat) : Byte :=
  BitVec.ofNat 8 ((w % 2 ^ nbits) / 2 ^ (8 * k))

/-- The three bytes of a table word, the opcode (bits 7 to 0) first: the longest instruction has three (R60). -/
def tableBytes (nbits w : Nat) : List Byte :=
  [tableByte nbits w 0, tableByte nbits w 1, tableByte nbits w 2]

/-- The instruction the decoder reads from a word of spec/opcode_table.json; `none` where it refuses. -/
def decodeTableWord (nbits w : Nat) : Option Instr :=
  match decode (tableBytes nbits w) with
  | .ok i => some i
  | .error _ => none

end Sys2Proof
end

