-- ==== Sys2Proof/Machine/Fetch.lean ====
section
/-! DEFINITION. Fetching (40_cycle.md R81, R82): the opcode at pc and the two bytes after it, modulo 256, all
three from the memory as it stands at the start of the step. Operand bytes the instruction does not use are
read too, which nothing can observe (R82). -/

namespace Sys2Proof.Machine

/-- The three bytes latched for a step, the opcode first. -/
def State.fetchBytes (s : State) : List Byte :=
  [s.readMem s.pc, s.readMem (s.pcPlus 1), s.readMem (s.pcPlus 2)]

/-- The instruction the engine is about to execute. -/
def State.fetchInstr (s : State) : Instr :=
  decodeFetched (s.readMem s.pc) (s.readMem (s.pcPlus 1)) (s.readMem (s.pcPlus 2))

/-- The state with three bytes stored where the next fetch reads them. -/
def State.storeAtPc (s : State) (b₀ b₁ b₂ : Byte) : State :=
  ((s.writeMem s.pc b₀).writeMem (s.pcPlus 1) b₁).writeMem (s.pcPlus 2) b₂

end Sys2Proof.Machine
end

