-- ==== Sys2Proof/Machine/Step.lean ====
section
/-! DEFINITION. One step of the Execution Engine (40_cycle.md R80, R89). -/

namespace Sys2Proof.Machine

/-- While Running: fetch, classify, execute one instruction (R89). In Halted and Faulted the engine takes no
step (R80), which is shown as an outcome that is no next state. -/
def step (s : State) : Host.Outcome State Fault Refusal :=
  match s.status with
  | .running => exec s.fetchInstr s
  | .halted => .fault .engineHalted
  | .faulted k info => .fault (.engineFaulted k info)

/-- The state with the bytes of a table word where `step` fetches, and the engine running, so that the next step
runs that instruction. From reset it changes memory alone; it stands for the loader's work (50_interfaces.md
R141), which puts a program at address 0, where pc is after reset. -/
def State.withFetchWord (s : State) (nbits w : Nat) : State :=
  (s.storeAtPc (tableByte nbits w 0) (tableByte nbits w 1) (tableByte nbits w 2)).setStatus .running

end Sys2Proof.Machine
end

