-- ==== Sys2Proof/Machine/Interface.lean ====
section
/-! DEFINITION. The core's interfaces (50_interfaces.md R140): reset with the memory-load interface (R141, R142),
the output port (R144) and the status output (R146). -/

namespace Sys2Proof.Machine

/-- The bytes of an image stored into consecutive cells from `a` on (R141). -/
def loadFrom (a : Nat) (img : List Byte) (m : Memory) : Memory :=
  match img with
  | [] => m
  | b :: img => loadFrom (a + 1) img (Memory.write m a b)

/-- `Reset(img)` (R37, R170): the reset state with the image in memory from address 0. -/
def State.resetWith (img : List Byte) : State :=
  { State.reset with mem := loadFrom 0 img [] }

/-- The reset input (R140, R170, R171): in any status, the new state depends on the image alone; an image longer
than the memory is refused at the interface (R142). -/
def applyReset (img : List Byte) (_s : State) : Host.Outcome State Fault Refusal :=
  if img.length ≤ Config.memSize then .next (State.resetWith img) else .refused .imageTooLong

/-- The source's running flag (R31). -/
def State.runningFlag (s : State) : Bool := s.status == .running

/-- The numeric code of a fault kind on the status output (60_exceptions.md R150, R154; D20). -/
def FaultKind.code : FaultKind → Nat
  | .divideByZero => 1
  | .aluDecode => 2
  | .registerIndex => 3

/-- The fault code on the status output; 0 means no fault (R154). -/
def Status.code : Status → Nat
  | .running => 0
  | .halted => 0
  | .faulted k _ => k.code

/-- The information recorded with a fault (R154). -/
def Status.info? : Status → Option Byte
  | .running => none
  | .halted => none
  | .faulted _ info => some info

/-- The decimal digits, most significant first, that the host prints for one output event: no sign, no leading
zero, `0` for zero (R144). The line terminator after them is not given by the spec. -/
def decimalDigits (v : Byte) : List Nat :=
  if v.toNat < 10 then [v.toNat]
  else if v.toNat < 100 then [v.toNat / 10, v.toNat % 10]
  else [v.toNat / 100, v.toNat / 10 % 10, v.toNat % 10]

end Sys2Proof.Machine
end

