-- ==== Sys2Proof/Safety.lean ====
section
/-! DEFINITION. What counts as a safe state or run, and the words the claims use: what a step leaves unchanged,
the invariant, the hang, the wrap sites (20_memory.md R52) and the program's contract (70_reset_and_hazards.md
R173). -/

namespace Sys2Proof.Machine

/-! ## Frames -/

/-- Every register outside `is` is unchanged from `s` to `t`. -/
abbrev RegsKeptExcept (is : List RegIdx) (s t : State) : Prop :=
  ∀ j : RegIdx, j ∉ is → t.getReg j = s.getReg j

/-- Every byte of memory reads as before. -/
abbrev MemKept (s t : State) : Prop :=
  ∀ a : Byte, t.readMem a = s.readMem a

/-- Every byte of memory outside address `w` reads as before. -/
abbrev MemKeptExcept (w : Byte) (s t : State) : Prop :=
  ∀ a : Byte, a ≠ w → t.readMem a = s.readMem a

/-- An answer is the fault `k` with `info`, taken precisely (60_exceptions.md R156): the status latches it, and
every register, every memory cell, pc, FL and the output stream are as in `s`. -/
abbrev RaisesFrom (r : Host.Outcome State Fault Refusal) (k : FaultKind) (info : Byte) (s : State) : Prop :=
  ∃ t, r = .next t ∧ t.status = .faulted k info ∧ RegsKeptExcept [] s t ∧ MemKept s t ∧
    t.pc = s.pc ∧ t.fl = s.fl ∧ t.out = s.out

/-! ## The invariant -/

/-- Memory is in its canonical form and FL holds one of the four values of R30. -/
abbrev State.Inv (s : State) : Prop :=
  Memory.wf s.mem = true ∧ legalFlags s.fl = true

/-! ## Runs -/

/-- `t` is reached from `s` by steps of the engine. -/
inductive Reaches (s : State) : State → Prop where
  | refl : Reaches s s
  | step {t u : State} : Reaches s t → step t = .next u → Reaches s u

/-- The hang (R87, R165): the engine is running and its step leaves the state as it is. -/
def Hangs (s : State) : Prop :=
  s.status = .running ∧ step s = .next s

/-- A run of the image ends normally (R90; clause (f) of R173). -/
def HaltsFrom (img : List Byte) : Prop :=
  ∃ t, Reaches (State.resetWith img) t ∧ t.status = .halted

/-! ## Registers and the contract -/

/-- The register operand bytes of an instruction, in order (30_encoding.md R61). -/
def regOperands : Instr → List Byte
  | .ldi r _ => [r]
  | .prn r => [r]
  | .hlt => []
  | .push r => [r]
  | .pop r => [r]
  | .call r => [r]
  | .ret => []
  | .jmp r => [r]
  | .jeq r => [r]
  | .jne r => [r]
  | .add a b => [a, b]
  | .sub a b => [a, b]
  | .mul a b => [a, b]
  | .div a b => [a, b]
  | .cmp a b => [a, b]
  | .unrecognisedAlu _ => []
  | .unrecognisedNonAlu _ => []

/-- Whether an instruction may write register `j`: the column "writes" of the table in 10_state.md R24. -/
def mayWriteReg (j : RegIdx) : Instr → Bool
  | .ldi r _ => r.toNat == j.val
  | .prn _ => false
  | .hlt => false
  | .push _ => j == Config.spIndex
  | .pop r => r.toNat == j.val || j == Config.spIndex
  | .call _ => j == Config.spIndex
  | .ret => j == Config.spIndex
  | .jmp _ => false
  | .jeq _ => false
  | .jne _ => false
  | .add a _ => a.toNat == j.val
  | .sub a _ => a.toNat == j.val
  | .mul a _ => a.toNat == j.val
  | .div a _ => a.toNat == j.val
  | .cmp _ _ => false
  | .unrecognisedAlu _ => false
  | .unrecognisedNonAlu _ => false

/-- W1 and W2 of R52 for an instruction of `n` bytes: an operand byte, or the address after the instruction,
lies past the end of memory. -/
def wrapsPc (n : Nat) (s : State) : Bool :=
  256 ≤ s.pc.toNat + n

/-- Whether the step about to be taken reaches a wrap site W1 to W5 of R52. A jump advances only when it is not
taken; a transfer has W1 for its own operand byte. A step that faults may be counted too. -/
def atWrapSite (s : State) : Bool :=
  match s.fetchInstr with
  | .ldi _ _ => wrapsPc 3 s
  | .prn _ => wrapsPc 2 s
  | .hlt => false
  | .push _ => wrapsPc 2 s || s.sp == 0
  | .pop r => wrapsPc 2 s || (if r = 7 then s.readMem s.sp == 255 else s.sp == 255)
  | .call _ => wrapsPc 2 s || s.sp == 0
  | .ret => s.sp == 255
  | .jmp _ => s.pc == 255
  | .jeq _ => s.pc == 255 || (!s.flagE && wrapsPc 2 s)
  | .jne _ => s.pc == 255 || (s.flagE && wrapsPc 2 s)
  | .add _ _ => wrapsPc 3 s
  | .sub _ _ => wrapsPc 3 s
  | .mul _ _ => wrapsPc 3 s
  | .div _ _ => wrapsPc 3 s
  | .cmp _ _ => wrapsPc 3 s
  | .unrecognisedAlu _ => false
  | .unrecognisedNonAlu _ => false

/-- The opcode names an instruction: clause (c) of R173. -/
def isDefined : Instr → Bool
  | .ldi _ _ => true
  | .prn _ => true
  | .hlt => true
  | .push _ => true
  | .pop _ => true
  | .call _ => true
  | .ret => true
  | .jmp _ => true
  | .jeq _ => true
  | .jne _ => true
  | .add _ _ => true
  | .sub _ _ => true
  | .mul _ _ => true
  | .div _ _ => true
  | .cmp _ _ => true
  | .unrecognisedAlu _ => false
  | .unrecognisedNonAlu _ => false

/-- The register operand bytes an instruction accesses in state `s`, in the order of their checks: all of them,
but a conditional jump that is not taken accesses none (10_state.md R23, R24). -/
def accessedRegs (s : State) (i : Instr) : List Byte :=
  match i with
  | .ldi r _ => [r]
  | .prn r => [r]
  | .hlt => []
  | .push r => [r]
  | .pop r => [r]
  | .call r => [r]
  | .ret => []
  | .jmp r => [r]
  | .jeq r => if s.flagE then [r] else []
  | .jne r => if s.flagE then [] else [r]
  | .add a b => [a, b]
  | .sub a b => [a, b]
  | .mul a b => [a, b]
  | .div a b => [a, b]
  | .cmp a b => [a, b]
  | .unrecognisedAlu _ => []
  | .unrecognisedNonAlu _ => []

/-- The instruction is a DIV whose divisor register holds 0 in state `s`: the breach of clause (e) of R173. -/
def dividesByZero (s : State) (i : Instr) : Prop :=
  ∃ a b : Byte, ∃ j : RegIdx, i = .div a b ∧ b.toNat = j.val ∧ s.getReg j = 0

/-- The instruction meets, in state `s`, one of the three conditions of the table in 60_exceptions.md R150: its
opcode is of the ALU class and names no operation, it accesses a register through a byte above 7, or, with both
indices valid, it divides by zero. -/
def MeetsFault (s : State) (i : Instr) : Prop :=
  (∃ op, i = .unrecognisedAlu op) ∨ (∃ b ∈ accessedRegs s i, 7 < b.toNat) ∨
    ((∀ b ∈ accessedRegs s i, b.toNat ≤ 7) ∧ dividesByZero s i)

/-- The step about to be taken keeps clauses (a), (b), (c) and (e) of the program's contract (R173): register
bytes in 0 to 7, no wrap, a defined opcode, no zero divisor. -/
def KeepsContract (s : State) : Prop :=
  (∀ b ∈ regOperands s.fetchInstr, b.toNat ≤ 7) ∧ atWrapSite s = false ∧
    isDefined s.fetchInstr = true ∧ ¬ dividesByZero s s.fetchInstr

/-- A safe run of an image: every step taken from the reset state keeps the contract. -/
def SafeImage (img : List Byte) : Prop :=
  ∀ t, Reaches (State.resetWith img) t → t.status = .running → KeepsContract t

end Sys2Proof.Machine
end

