-- ==== Sys2Proof/Certificates/Slice0/Obligations.lean ====
section
/-! DEFINITION. The statements for the provers. Results are stated in natural numbers, apart from the helpers the
meanings use; `RaisesFrom`, `RegsKeptExcept`, `MemKept` and `MemKeptExcept` of Safety.lean spell a precise fault
and the frames. A register operand byte `r` with `r.toNat = i.val` names register `i`; a byte above 7 names none. -/

open Sys2Proof Sys2Proof.Machine

/-! ## Encoding -/

/-- Every well-formed instruction, with every operand at every value, decodes from its own bytes, whatever bytes
follow (30_encoding.md sections 1 to 4). -/
def Obligations.DecodeOfEncodeIsTheInstruction : Prop :=
  ∀ (i : Instr) (rest : List Byte), i.wf = true → decode (encode i ++ rest) = .ok i

/-- Any three bytes decode to a well-formed instruction whose own bytes are the first of them: no byte of an
instruction is dropped and no two opcode values share a reading (30_encoding.md sections 1 to 4; R86). -/
def Obligations.EncodeOfDecodeIsTheBytes : Prop :=
  ∀ ir op1 op2 : Byte, ∃ (i : Instr) (rest : List Byte),
    decode [ir, op1, op2] = .ok i ∧ i.wf = true ∧ encode i ++ rest = [ir, op1, op2]

/-- The opcode values that name no instruction are the lists of R69 and R70, 27 and 214 of them. The extent of the
ALU class is the spec's own decision D6 (92_eei_decisions.md). -/
def Obligations.UndefinedOpcodesAreTheListedOnes : Prop :=
  let alu : List Nat := [0xA4, 0xA5, 0xA6] ++ List.range' 0xA8 8 ++ List.range' 0xB0 16
  let nonAlu : List Nat := (List.range' 0 0xA0 ++ List.range' 0xC0 0x40).filter
    (· ∉ [0x01, 0x11, 0x45, 0x46, 0x47, 0x50, 0x54, 0x55, 0x56, 0x82])
  alu.length = 27 ∧ nonAlu.length = 214 ∧
    ∀ ir op1 op2 : Byte,
      (decode [ir, op1, op2] = .ok (.unrecognisedAlu ir) ↔ ir.toNat ∈ alu) ∧
      (decode [ir, op1, op2] = .ok (.unrecognisedNonAlu ir) ↔ ir.toNat ∈ nonAlu)

/-- A few table words, one per family, written out from R61, R67 and R68: opcode in bits 7 to 0, first operand in
bits 15 to 8, second in bits 23 to 16. A sanity statement. -/
def Obligations.SampleTableWordsDecode : Prop :=
  decodeTableWord 24 0b00001000_00000000_10000010 = some (.ldi 0 8) ∧
  decodeTableWord 16 0b00000011_01000101 = some (.push 3) ∧
  decodeTableWord 8 0b00010001 = some .ret ∧
  decodeTableWord 16 0b00000001_01010000 = some (.call 1) ∧
  decodeTableWord 24 0b00000001_00000010_10100001 = some (.sub 2 1) ∧
  decodeTableWord 8 0b10111111 = some (.unrecognisedAlu 0xBF) ∧
  decodeTableWord 8 0b00000000 = some (.unrecognisedNonAlu 0)

/-! ## The step -/

/-- While Running, a step runs the instruction that the three bytes at pc, pc + 1 and pc + 2 (modulo 256) decode
to, and these bytes always decode to a well-formed one (40_cycle.md section 3; operand fetch at the start of the
step is the spec's decision D13). Nothing is added around `exec`: each meaning sets pc itself. -/
def Obligations.StepRunsTheFetchedInstruction : Prop :=
  (∀ (s : State) (i : Instr), s.status = .running →
    decode [s.readMem s.pc, s.readMem (s.pc + 1), s.readMem (s.pc + 2)] = .ok i → i.wf = true →
    step s = exec i s) ∧
  ∀ s : State, ∃ i : Instr,
    decode [s.readMem s.pc, s.readMem (s.pc + 1), s.readMem (s.pc + 2)] = .ok i ∧ i.wf = true

/-- While Running the engine always takes its next step, and a run is finite exactly when it reaches HLT or a fault
(70_reset_and_hazards.md section 4). That an ended run shows as no next state is the model's choice (log entry 1). -/
def Obligations.RunningEngineAlwaysSteps : Prop :=
  (∀ s : State, s.status = .running → ∃ t, step s = .next t) ∧
  ∀ s : State, (∃ k, ∀ t, Host.Core.run Sys2Proof.core k s ≠ .next t) ↔
    ∃ (k : Nat) (t : State), Host.Core.run Sys2Proof.core k s = .next t ∧
      (t.status = .halted ∨ ∃ kind info, t.status = .faulted kind info)

/-- In Halted and in Faulted the engine takes no step (40_cycle.md section 1). That "no step" is the outcome
`fault`, naming the status, is the model's choice (log entry 1). -/
def Obligations.StoppedEngineTakesNoStep : Prop :=
  (∀ s : State, s.status = .halted → step s = .fault .engineHalted) ∧
  ∀ (s : State) (k : FaultKind) (info : Byte),
    s.status = .faulted k info → step s = .fault (.engineFaulted k info)

/-- The status changes only as R32 lists (10_state.md section 5): a step is taken in Running alone; it ends Halted
exactly when the instruction is HLT, Faulted exactly when the instruction meets one of the three conditions of R150
(60_exceptions.md section 1), and Running exactly when neither holds. The conditions, of the instruction and the
state before the step, are `MeetsFault`: an ALU-class opcode without an operation, an accessed register byte above
7, or a DIV by zero with both indices valid. The fault latch, the absorbing states, the fault on a register byte
and the extent of the ALU class are the spec's decisions D11, D16, D5, D6. -/
def Obligations.StatusChangesOnlyByHaltOrFault : Prop :=
  ∀ s t : State, step s = .next t → s.status = .running ∧
    (t.status = .halted ↔ s.fetchInstr = .hlt) ∧
    ((∃ k info, t.status = .faulted k info) ↔ MeetsFault s s.fetchInstr) ∧
    (t.status = .running ↔ s.fetchInstr ≠ .hlt ∧ ¬ MeetsFault s s.fetchInstr)

/-- The model's invariant, memory in canonical form and FL one of the four values of R30, is kept by every step
from every state that meets it. The canonical form is the model's representation (log entry 2). -/
def Obligations.EveryStepKeepsTheInvariant : Prop :=
  ∀ s t : State, s.Inv → step s = .next t → t.Inv

/-- The invariant holds right after reset, with nothing loaded and with any image that fits. -/
def Obligations.ResetMeetsTheInvariant : Prop :=
  State.reset.Inv ∧ ∀ (img : List Byte) (s t : State), applyReset img s = .next t → t.Inv

/-! ## Whole-machine rules -/

/-- R29: only CMP writes FL; it writes the whole byte, whatever was there before; every other instruction does the
same thing on two states whose FL agree in bit E, and, if it is no conditional jump, on any two. -/
def Obligations.FlagsWrittenByCmpReadByJumps : Prop :=
  (∀ (i : Instr) (s t : State), (∀ a b, i ≠ .cmp a b) → exec i s = .next t → t.fl = s.fl) ∧
  (∀ (a b : Byte) (m n : RegIdx) (s : State) (f : Byte), a.toNat = m.val → b.toNat = n.val →
    (∃ t, exec (.cmp a b) s = .next t) ∧ exec (.cmp a b) (s.setFl f) = exec (.cmp a b) s) ∧
  (∀ (i : Instr) (s t : State) (f : Byte), (∀ a b, i ≠ .cmp a b) →
    ((∀ r, i ≠ .jeq r ∧ i ≠ .jne r) ∨ (s.setFl f).flagE = s.flagE) →
    exec i s = .next t → exec i (s.setFl f) = .next (t.setFl f))

/-- FL over time (10_state.md section 4, R30): from one of the four values a step leads to one of the four, never
back to "no compare yet", and a CMP that runs leaves E, G or L. The bit places are the spec's decision D9. -/
def Obligations.FlagsAreOneHotAfterACompare : Prop :=
  (∀ s t : State, s.fl.toNat ∈ [0, 1, 2, 4] → step s = .next t →
    t.fl.toNat ∈ [0, 1, 2, 4] ∧ (s.fl.toNat ≠ 0 → t.fl.toNat ≠ 0)) ∧
  ∀ (s t : State) (a b : Byte), s.fetchInstr = .cmp a b → step s = .next t → t.status = .running →
    t.fl.toNat ∈ [1, 2, 4]

/-- A fault is precise (60_exceptions.md section 1; decision D11): a step that ends Faulted changes nothing but
the status, and the engine then takes no step. That "no step" shows as the outcome `fault` with the latched kind and
information is the model's choice (log entry 1). -/
def Obligations.FaultsChangeOnlyTheStatus : Prop :=
  ∀ (s t : State) (k : FaultKind) (info : Byte), step s = .next t → t.status = .faulted k info →
    t.regs = s.regs ∧ t.mem = s.mem ∧ t.pc = s.pc ∧ t.fl = s.fl ∧ t.out = s.out ∧
      step t = .fault (.engineFaulted k info)

/-- `DivideByZero` is raised by DIV and only by DIV, exactly when its divisor register holds 0 and both indices have
passed their check (60_exceptions.md section 1, R151); the byte recorded is pc (the table of R150; that it stands
inside the status is the model's inference, log entry 10), and every register, the dividend among them, keeps its
value (for registers other than the dividend this is decision D11). -/
def Obligations.DivideByZeroExactlyOnZeroDivisor : Prop :=
  ∀ (i : Instr) (s t : State) (info : Byte), s.status = .running → exec i s = .next t →
    (t.status = .faulted .divideByZero info ↔
      ∃ (a b : Byte) (m n : RegIdx), i = .div a b ∧ a.toNat = m.val ∧ b.toNat = n.val ∧
        (s.getReg n).toNat = 0 ∧ info = s.pc) ∧
    (t.status = .faulted .divideByZero info → ∀ m : RegIdx, t.getReg m = s.getReg m)

/-- Which fault, and which byte it records, when operands are bad (60_exceptions.md section 1; decisions D5, D6,
D12): `AluDecode` exactly on an unrecognised ALU-class opcode; `RegisterIndex` exactly when an accessed register
operand byte is above 7, with the first such byte in operand order. -/
def Obligations.DecodeAndIndexFaultsInPriorityOrder : Prop :=
  ∀ (i : Instr) (s t : State) (info : Byte), s.status = .running → exec i s = .next t →
    (t.status = .faulted .aluDecode info ↔ i = .unrecognisedAlu info) ∧
    (t.status = .faulted .registerIndex info ↔
      (accessedRegs s i).find? (fun b => decide (7 < b.toNat)) = some info)

/-- Output is append-only, at most one event a step, only by PRN, and no instruction can read it: with another
history before it, the same step adds the same events and does all else alike (50_interfaces.md section on the
output port; decision D17). -/
def Obligations.OutputIsAppendOnlyAndUnreadable : Prop :=
  ∀ (i : Instr) (s t : State), exec i s = .next t → ∃ d : List Byte,
    t.out = s.out ++ d ∧ (d = [] ∨ ∃ (r : Byte) (j : RegIdx), i = .prn r ∧ r.toNat = j.val ∧ d = [s.getReg j]) ∧
    ∀ o : List Byte, exec i { s with out := o } = .next { t with out := o ++ d }

/-- Only PUSH and CALL write memory, and only the one byte at the decremented stack pointer (20_memory.md R40, R45;
wrap at 0 is decision D4). -/
def Obligations.OnlyPushAndCallWriteMemory : Prop :=
  ∀ (s t : State) (a : Byte), step s = .next t → t.readMem a ≠ s.readMem a →
    a.toNat = ((s.getReg 7).toNat + 255) % 256 ∧ a = s.pushAddress ∧
      ∃ r, s.fetchInstr = .push r ∨ s.fetchInstr = .call r

/-- The column "writes" of the table in 10_state.md section 2 (R24): a step changes no register that the table
does not name for its instruction. -/
def Obligations.OnlyTheListedRegistersChange : Prop :=
  ∀ (i : Instr) (s t : State) (j : RegIdx), exec i s = .next t → mayWriteReg j i = false →
    t.getReg j = s.getReg j

/-- A program that keeps the contract of 70_reset_and_hazards.md section 2 (R173 a, b, c, e, read step by step as
`KeepsContract` does: the model's choice, log entry 22) is sound: from reset with its image, no reachable state is
Faulted, none is a hang on an unrecognised opcode, and HLT is the only way its run ends. It is said of every list of
bytes, so of every image of at most 256, the images a reset accepts. -/
def Obligations.ContractRulesOutFaults : Prop :=
  ∀ img : List Byte, SafeImage img → ∀ t : State, Reaches (State.resetWith img) t →
    (t.status = .running ∨ t.status = .halted) ∧
    (t.status = .running → ∀ op, t.fetchInstr ≠ .unrecognisedNonAlu op) ∧
    (t.status = .halted → t.fetchInstr = .hlt)

/-- From every state, reached by a run or not, a step that keeps the contract (70_reset_and_hazards.md section 2,
R173 a, b, c, e, as `KeepsContract` reads it: the model's choice, log entry 22) is taken and latches no fault: it
ends Running for every instruction but HLT, and Halted for HLT. The faults it rules out on register bytes and on
ALU-class opcodes are the spec's decisions D5, D6. -/
def Obligations.ContractStepCannotFault : Prop :=
  ∀ s : State, s.status = .running → KeepsContract s → ∃ t, step s = .next t ∧
    (t.status = .running ∧ s.fetchInstr ≠ .hlt ∨ t.status = .halted ∧ s.fetchInstr = .hlt)

/-- A store is seen by the very next fetch (20_memory.md section 4, R51; decision D13): when a PUSH writes the
cell right after itself, the next step fetches the pushed byte as its opcode. A PUSH that writes its own operand
byte still runs with the byte it had fetched. -/
def Obligations.StoreIsSeenByTheNextFetch : Prop :=
  ∀ (s : State) (r : Byte) (i : RegIdx), s.status = .running → s.fetchInstr = .push r → r.toNat = i.val →
    (s.pushAddress = s.pc + 2 → ∃ t, step s = .next t ∧
      t.readMem t.pc = if i = 7 then s.pushAddress else s.getReg i) ∧
    (s.pushAddress = s.pc + 1 → ∃ t, step s = .next t ∧
      t.readMem (s.pc + 1) = if i = 7 then s.pushAddress else s.getReg i)

/-! ## Reset and loading -/

/-- `Reset(img)` (10_state.md section 8; 70_reset_and_hazards.md section 1; 50_interfaces.md on loading): from any
state, whatever its status, an image of at most 256 bytes gives SP = 0xF4, Running, an empty output, the image
from address 0; a longer one is refused. The zeros in pc, R0 to R6, FL and the other cells are the spec's own
decision D10; the refusal is its decision D18. -/
def Obligations.ResetLoadsTheImage : Prop :=
  (∀ (img : List Byte) (s : State), img.length ≤ 256 → ∃ t, applyReset img s = .next t ∧
    (t.getReg 7).toNat = 244 ∧ t.status = .running ∧ t.pc = 0 ∧ t.fl = 0 ∧ t.out = [] ∧
    (∀ j : RegIdx, j ≠ 7 → t.getReg j = 0) ∧
    (∀ a : Byte, (h : a.toNat < img.length) → t.readMem a = img[a.toNat]) ∧
    (∀ a : Byte, img.length ≤ a.toNat → t.readMem a = 0)) ∧
  (∀ (img : List Byte) (s : State), 256 < img.length → applyReset img s = .refused .imageTooLong) ∧
  applyReset [] State.reset = .next State.reset

/-- A word of the opcode table stored where the engine fetches is what the next step runs (the model's own
interface, log entry 16). -/
def Obligations.StoredTableWordRunsNext : Prop :=
  ∀ (s : State) (nbits w : Nat) (i : Instr), decodeTableWord nbits w = some i →
    step (s.withFetchWord nbits w) = exec i (s.withFetchWord nbits w) ∧
    RegsKeptExcept [] s (s.withFetchWord nbits w) ∧ (s.withFetchWord nbits w).pc = s.pc ∧
    (s.withFetchWord nbits w).fl = s.fl ∧ (s.withFetchWord nbits w).out = s.out ∧
    ∀ a : Byte, a ≠ s.pc → a ≠ s.pc + 1 → a ≠ s.pc + 2 → (s.withFetchWord nbits w).readMem a = s.readMem a

/-! ## Data movement -/

/-- R100 LDI: bytes `82 rr ii`; the immediate, unchanged, into the register; pc + 3 modulo 256; nothing else. An
index above 7 raises `RegisterIndex`, as the rule itself says (what a bad index does is decision D5 in origin). -/
def Obligations.LdiLoadsTheImmediate : Prop :=
  (∀ r v : Byte, decode [0x82, r, v] = .ok (.ldi r v) ∧ encode (.ldi r v) = [0x82, r, v]) ∧
  (∀ (r v : Byte) (s : State), 7 < r.toNat → RaisesFrom (exec (.ldi r v) s) .registerIndex r s) ∧
  ∀ (r v : Byte) (i : RegIdx) (s : State), r.toNat = i.val → ∃ t, exec (.ldi r v) s = .next t ∧
    t.getReg i = v ∧ t.pc.toNat = (s.pc.toNat + 3) % 256 ∧
    RegsKeptExcept [i] s t ∧ MemKept s t ∧ t.fl = s.fl ∧ t.status = s.status ∧ t.out = s.out

/-- PRN (41_data_movement.md R101; the form of the event is decision D17): bytes `47 rr`; exactly one event with
the register's value, pc + 2, nothing else. An index above 7 raises and emits nothing. -/
def Obligations.PrnEmitsTheRegister : Prop :=
  (∀ r x : Byte, decode [0x47, r, x] = .ok (.prn r) ∧ encode (.prn r) = [0x47, r]) ∧
  (∀ (r : Byte) (s : State), 7 < r.toNat → RaisesFrom (exec (.prn r) s) .registerIndex r s) ∧
  ∀ (r : Byte) (i : RegIdx) (s : State), r.toNat = i.val → ∃ t, exec (.prn r) s = .next t ∧
    t.out = s.out ++ [s.getReg i] ∧ t.pc.toNat = (s.pc.toNat + 2) % 256 ∧
    RegsKeptExcept [] s t ∧ MemKept s t ∧ t.fl = s.fl ∧ t.status = s.status

/-- PUSH (41_data_movement.md R102; wrap at 0 is decision D4, the order for register 7 decision D14): bytes
`45 rr`; SP down by one modulo 256; the byte at the new SP is the register's value, for register 7 the already
decremented SP; pc + 2; no other register and no other byte changes. An index above 7 raises, SP not moved. -/
def Obligations.PushStoresBelowTheStack : Prop :=
  (∀ r x : Byte, decode [0x45, r, x] = .ok (.push r) ∧ encode (.push r) = [0x45, r]) ∧
  (∀ (r : Byte) (s : State), 7 < r.toNat → RaisesFrom (exec (.push r) s) .registerIndex r s) ∧
  ∀ (r : Byte) (i : RegIdx) (s : State), r.toNat = i.val → ∃ t, exec (.push r) s = .next t ∧
    (t.getReg 7).toNat = ((s.getReg 7).toNat + 255) % 256 ∧ t.getReg 7 = s.pushAddress ∧
    t.readMem s.pushAddress = (if i = 7 then s.pushAddress else s.getReg i) ∧
    t.pc.toNat = (s.pc.toNat + 2) % 256 ∧
    RegsKeptExcept [7] s t ∧ MemKeptExcept s.pushAddress s t ∧ t.fl = s.fl ∧ t.status = s.status ∧ t.out = s.out

/-- POP (41_data_movement.md R103; decisions D4, D14): bytes `46 rr`; the byte at SP into the register, SP up by
one modulo 256, for register 7 the loaded byte plus one; pc + 2; no byte of memory changes. An index above 7
raises, SP not moved. -/
def Obligations.PopLoadsFromTheStack : Prop :=
  (∀ r x : Byte, decode [0x46, r, x] = .ok (.pop r) ∧ encode (.pop r) = [0x46, r]) ∧
  (∀ (r : Byte) (s : State), 7 < r.toNat → RaisesFrom (exec (.pop r) s) .registerIndex r s) ∧
  ∀ (r : Byte) (i : RegIdx) (s : State), r.toNat = i.val → ∃ t, exec (.pop r) s = .next t ∧
    (i ≠ 7 → t.getReg i = s.readMem (s.getReg 7) ∧ (t.getReg 7).toNat = ((s.getReg 7).toNat + 1) % 256) ∧
    (i = 7 → (t.getReg 7).toNat = ((s.readMem (s.getReg 7)).toNat + 1) % 256) ∧
    t.pc.toNat = (s.pc.toNat + 2) % 256 ∧
    RegsKeptExcept [i, 7] s t ∧ MemKept s t ∧ t.fl = s.fl ∧ t.status = s.status ∧ t.out = s.out

/-- PUSH then POP of the same register restores it and the stack pointer, for every register, 7 among them, and at
the wrap (the property in 41_data_movement.md under R103; decisions D4, D14). -/
def Obligations.PushThenPopRestores : Prop :=
  ∀ (r : Byte) (i : RegIdx) (s : State), r.toNat = i.val → ∃ t u, exec (.push r) s = .next t ∧
    exec (.pop r) t = .next u ∧ RegsKeptExcept [] s u ∧ u.pc.toNat = (s.pc.toNat + 4) % 256 ∧
    MemKeptExcept s.pushAddress s u ∧ u.fl = s.fl ∧ u.status = s.status ∧ u.out = s.out

/-! ## Control flow -/

/-- R111 HLT: bytes `01`; the status becomes Halted, everything else is unchanged, pc keeps addressing the HLT
byte, and the engine takes no further step. -/
def Obligations.HltHaltsAndFreezes : Prop :=
  (∀ x y : Byte, decode [0x01, x, y] = .ok .hlt) ∧ encode .hlt = [0x01] ∧
  ∀ s : State, ∃ t, exec .hlt s = .next t ∧ t.status = .halted ∧ t.pc = s.pc ∧
    RegsKeptExcept [] s t ∧ MemKept s t ∧ t.fl = s.fl ∧ t.out = s.out ∧ ∀ u, step t ≠ .next u

/-- CALL (42_control_flow.md R112; decisions D3, D4, D14): bytes `50 rr`; SP down by one modulo 256; the byte at the
new SP is pc + 2 modulo 256; pc is the register's value, for register 7 the decremented SP; no other register and
no other byte changes. An index above 7 raises and pushes nothing. -/
def Obligations.CallPushesTheReturnAddress : Prop :=
  (∀ r x : Byte, decode [0x50, r, x] = .ok (.call r) ∧ encode (.call r) = [0x50, r]) ∧
  (∀ (r : Byte) (s : State), 7 < r.toNat → RaisesFrom (exec (.call r) s) .registerIndex r s) ∧
  ∀ (r : Byte) (i : RegIdx) (s : State), r.toNat = i.val → ∃ t, exec (.call r) s = .next t ∧
    (t.getReg 7).toNat = ((s.getReg 7).toNat + 255) % 256 ∧ t.getReg 7 = s.pushAddress ∧
    (t.readMem s.pushAddress).toNat = (s.pc.toNat + 2) % 256 ∧
    t.pc = (if i = 7 then s.pushAddress else s.getReg i) ∧
    RegsKeptExcept [7] s t ∧ MemKeptExcept s.pushAddress s t ∧ t.fl = s.fl ∧ t.status = s.status ∧ t.out = s.out

/-- RET (42_control_flow.md R113; wrap is decision D4): bytes `11`; pc from the byte at SP, SP up by one modulo 256,
nothing else. -/
def Obligations.RetPopsTheProgramCounter : Prop :=
  (∀ x y : Byte, decode [0x11, x, y] = .ok .ret) ∧ encode .ret = [0x11] ∧
  ∀ s : State, ∃ t, exec .ret s = .next t ∧
    t.pc = s.readMem (s.getReg 7) ∧ (t.getReg 7).toNat = ((s.getReg 7).toNat + 1) % 256 ∧
    RegsKeptExcept [7] s t ∧ MemKept s t ∧ t.fl = s.fl ∧ t.status = s.status ∧ t.out = s.out

/-- CALL followed by RET comes back to the byte after the CALL's operand, with every register as before (the
property in 42_control_flow.md under R113; decisions D3, D4). -/
def Obligations.CallThenRetReturns : Prop :=
  ∀ (r : Byte) (i : RegIdx) (s : State), r.toNat = i.val → ∃ t u, exec (.call r) s = .next t ∧
    exec .ret t = .next u ∧ u.pc.toNat = (s.pc.toNat + 2) % 256 ∧ RegsKeptExcept [] s u ∧
    MemKeptExcept s.pushAddress s u ∧ u.fl = s.fl ∧ u.status = s.status ∧ u.out = s.out

/-- R114 JMP: bytes `54 rr`; pc is the register's value, nothing else changes. An index above 7 raises. -/
def Obligations.JmpSetsThePcFromTheRegister : Prop :=
  (∀ r x : Byte, decode [0x54, r, x] = .ok (.jmp r) ∧ encode (.jmp r) = [0x54, r]) ∧
  (∀ (r : Byte) (s : State), 7 < r.toNat → RaisesFrom (exec (.jmp r) s) .registerIndex r s) ∧
  ∀ (r : Byte) (i : RegIdx) (s : State), r.toNat = i.val → ∃ t, exec (.jmp r) s = .next t ∧
    t.pc = s.getReg i ∧ RegsKeptExcept [] s t ∧ MemKept s t ∧ t.fl = s.fl ∧ t.status = s.status ∧ t.out = s.out

/-- JEQ and JNE (42_control_flow.md R115, R116; decision D5): bytes `55 rr`, `56 rr`; JEQ takes its branch exactly
when bit 0 of FL is set, JNE exactly when it is clear; taken, pc is the register's value, or an index above 7
raises; not taken, pc + 2 for every operand byte, 8 to 255 among them; nothing else changes. -/
def Obligations.ConditionalJumpsFollowBitE : Prop :=
  (∀ r x : Byte, decode [0x55, r, x] = .ok (.jeq r) ∧ encode (.jeq r) = [0x55, r] ∧
    decode [0x56, r, x] = .ok (.jne r) ∧ encode (.jne r) = [0x56, r]) ∧
  ∀ (i : Instr) (r : Byte) (s : State),
    (i = .jeq r ∧ s.fl.getLsbD 0 = true ∨ i = .jne r ∧ s.fl.getLsbD 0 = false →
      (7 < r.toNat → RaisesFrom (exec i s) .registerIndex r s) ∧
      ∀ j : RegIdx, r.toNat = j.val → ∃ t, exec i s = .next t ∧ t.pc = s.getReg j ∧
        RegsKeptExcept [] s t ∧ MemKept s t ∧ t.fl = s.fl ∧ t.status = s.status ∧ t.out = s.out) ∧
    (i = .jeq r ∧ s.fl.getLsbD 0 = false ∨ i = .jne r ∧ s.fl.getLsbD 0 = true →
      ∃ t, exec i s = .next t ∧ t.pc.toNat = (s.pc.toNat + 2) % 256 ∧
        RegsKeptExcept [] s t ∧ MemKept s t ∧ t.fl = s.fl ∧ t.status = s.status ∧ t.out = s.out)

/-! ## The ALU -/

/-- R123 ADD: bytes `A0 aa bb`; `x[a]` becomes the sum modulo 256; pc + 3; nothing else, FL least of all. Indices
are checked `a` first, and the first above 7 raises. -/
def Obligations.AddWrapsAtEightBits : Prop :=
  (∀ a b : Byte, decode [0xA0, a, b] = .ok (.add a b) ∧ encode (.add a b) = [0xA0, a, b]) ∧
  (∀ (a b : Byte) (s : State), 7 < a.toNat → RaisesFrom (exec (.add a b) s) .registerIndex a s) ∧
  (∀ (a b : Byte) (s : State), a.toNat ≤ 7 → 7 < b.toNat → RaisesFrom (exec (.add a b) s) .registerIndex b s) ∧
  ∀ (a b : Byte) (m n : RegIdx) (s : State), a.toNat = m.val → b.toNat = n.val →
    ∃ t, exec (.add a b) s = .next t ∧
      (t.getReg m).toNat = ((s.getReg m).toNat + (s.getReg n).toNat) % 256 ∧
      t.pc.toNat = (s.pc.toNat + 3) % 256 ∧
      RegsKeptExcept [m] s t ∧ MemKept s t ∧ t.fl = s.fl ∧ t.status = s.status ∧ t.out = s.out

/-- R124 SUB: bytes `A1 aa bb`; `x[a]` becomes the difference modulo 256; pc + 3; nothing else. Indices are checked
`a` first, and the first above 7 raises. -/
def Obligations.SubWrapsAtEightBits : Prop :=
  (∀ a b : Byte, decode [0xA1, a, b] = .ok (.sub a b) ∧ encode (.sub a b) = [0xA1, a, b]) ∧
  (∀ (a b : Byte) (s : State), 7 < a.toNat → RaisesFrom (exec (.sub a b) s) .registerIndex a s) ∧
  (∀ (a b : Byte) (s : State), a.toNat ≤ 7 → 7 < b.toNat → RaisesFrom (exec (.sub a b) s) .registerIndex b s) ∧
  ∀ (a b : Byte) (m n : RegIdx) (s : State), a.toNat = m.val → b.toNat = n.val →
    ∃ t, exec (.sub a b) s = .next t ∧
      ((t.getReg m).toNat : Int) = ((s.getReg m).toNat - (s.getReg n).toNat : Int) % 256 ∧
      t.pc.toNat = (s.pc.toNat + 3) % 256 ∧
      RegsKeptExcept [m] s t ∧ MemKept s t ∧ t.fl = s.fl ∧ t.status = s.status ∧ t.out = s.out

/-- R125 MUL: bytes `A2 aa bb`; `x[a]` becomes the low byte of the product, the high byte goes nowhere; pc + 3;
nothing else. Indices are checked `a` first, and the first above 7 raises. -/
def Obligations.MulKeepsTheLowByte : Prop :=
  (∀ a b : Byte, decode [0xA2, a, b] = .ok (.mul a b) ∧ encode (.mul a b) = [0xA2, a, b]) ∧
  (∀ (a b : Byte) (s : State), 7 < a.toNat → RaisesFrom (exec (.mul a b) s) .registerIndex a s) ∧
  (∀ (a b : Byte) (s : State), a.toNat ≤ 7 → 7 < b.toNat → RaisesFrom (exec (.mul a b) s) .registerIndex b s) ∧
  ∀ (a b : Byte) (m n : RegIdx) (s : State), a.toNat = m.val → b.toNat = n.val →
    ∃ t, exec (.mul a b) s = .next t ∧
      (t.getReg m).toNat = ((s.getReg m).toNat * (s.getReg n).toNat) % 256 ∧
      t.pc.toNat = (s.pc.toNat + 3) % 256 ∧
      RegsKeptExcept [m] s t ∧ MemKept s t ∧ t.fl = s.fl ∧ t.status = s.status ∧ t.out = s.out

/-- DIV (43_alu.md R126; unsigned floor is decision D7, the precise fault D11): bytes `A3 aa bb`; index checks `a`
first; then a zero divisor raises `DivideByZero` with pc; else `x[a]` becomes the quotient `q` with
`q * divisor ≤ dividend < (q + 1) * divisor`; pc + 3; nothing else. -/
def Obligations.DivGivesTheFloorQuotient : Prop :=
  (∀ a b : Byte, decode [0xA3, a, b] = .ok (.div a b) ∧ encode (.div a b) = [0xA3, a, b]) ∧
  (∀ (a b : Byte) (s : State), 7 < a.toNat → RaisesFrom (exec (.div a b) s) .registerIndex a s) ∧
  (∀ (a b : Byte) (s : State), a.toNat ≤ 7 → 7 < b.toNat → RaisesFrom (exec (.div a b) s) .registerIndex b s) ∧
  (∀ (a b : Byte) (n : RegIdx) (s : State), a.toNat ≤ 7 → b.toNat = n.val → (s.getReg n).toNat = 0 →
    RaisesFrom (exec (.div a b) s) .divideByZero s.pc s) ∧
  ∀ (a b : Byte) (m n : RegIdx) (s : State), a.toNat = m.val → b.toNat = n.val → (s.getReg n).toNat ≠ 0 →
    ∃ t, exec (.div a b) s = .next t ∧
      (t.getReg m).toNat * (s.getReg n).toNat ≤ (s.getReg m).toNat ∧
      (s.getReg m).toNat < ((t.getReg m).toNat + 1) * (s.getReg n).toNat ∧
      t.pc.toNat = (s.pc.toNat + 3) % 256 ∧
      RegsKeptExcept [m] s t ∧ MemKept s t ∧ t.fl = s.fl ∧ t.status = s.status ∧ t.out = s.out

/-- CMP (43_alu.md R127; unsigned is decision D8, the bit places decision D9): bytes `A7 aa bb`; FL becomes 1 when
equal, 2 when `x[a]` is greater, 4 when it is less; pc + 3; no register and no byte of memory changes. Indices are
checked `a` first, and the first above 7 raises. -/
def Obligations.CmpSetsExactlyOneFlag : Prop :=
  (∀ a b : Byte, decode [0xA7, a, b] = .ok (.cmp a b) ∧ encode (.cmp a b) = [0xA7, a, b]) ∧
  (∀ (a b : Byte) (s : State), 7 < a.toNat → RaisesFrom (exec (.cmp a b) s) .registerIndex a s) ∧
  (∀ (a b : Byte) (s : State), a.toNat ≤ 7 → 7 < b.toNat → RaisesFrom (exec (.cmp a b) s) .registerIndex b s) ∧
  ∀ (a b : Byte) (m n : RegIdx) (s : State), a.toNat = m.val → b.toNat = n.val →
    ∃ t, exec (.cmp a b) s = .next t ∧
      ((s.getReg m).toNat = (s.getReg n).toNat → t.fl.toNat = 1) ∧
      ((s.getReg n).toNat < (s.getReg m).toNat → t.fl.toNat = 2) ∧
      ((s.getReg m).toNat < (s.getReg n).toNat → t.fl.toNat = 4) ∧
      t.pc.toNat = (s.pc.toNat + 3) % 256 ∧
      RegsKeptExcept [] s t ∧ MemKept s t ∧ t.status = s.status ∧ t.out = s.out

/-- One register as both operands (43_alu.md section 3, R128): ADD doubles modulo 256, SUB clears, MUL squares
modulo 256, DIV gives 1 or raises on 0, CMP sets E. -/
def Obligations.SameRegisterAsBothOperands : Prop :=
  ∀ (a : Byte) (m : RegIdx) (s : State), a.toNat = m.val →
    (∃ t, exec (.add a a) s = .next t ∧ (t.getReg m).toNat = 2 * (s.getReg m).toNat % 256) ∧
    (∃ t, exec (.sub a a) s = .next t ∧ (t.getReg m).toNat = 0) ∧
    (∃ t, exec (.mul a a) s = .next t ∧ (t.getReg m).toNat = (s.getReg m).toNat ^ 2 % 256) ∧
    ((s.getReg m).toNat ≠ 0 → ∃ t, exec (.div a a) s = .next t ∧ (t.getReg m).toNat = 1) ∧
    ((s.getReg m).toNat = 0 → RaisesFrom (exec (.div a a) s) .divideByZero s.pc s) ∧
    (∃ t, exec (.cmp a a) s = .next t ∧ t.fl.toNat = 1)

/-! ## Opcodes that name no instruction -/

/-- R88: each of the 27 ALU-class opcode values without an operation, whatever the operand bytes, raises
`AluDecode` with the opcode; nothing but the status changes, and the operand bytes are not examined. -/
def Obligations.UnrecognisedAluOpcodeRaises : Prop :=
  (∀ ir x y : Byte, ir.toNat ∈ [0xA4, 0xA5, 0xA6] ++ List.range' 0xA8 8 ++ List.range' 0xB0 16 →
    decode [ir, x, y] = .ok (.unrecognisedAlu ir)) ∧
  ∀ (ir : Byte) (s : State), RaisesFrom (exec (.unrecognisedAlu ir) s) .aluDecode ir s

/-- An unrecognised non-ALU opcode (40_cycle.md section 2, R87; decision D15) completes by changing nothing at all,
and the engine repeats that step forever, still Running: a hang, never an end and never a fault. -/
def Obligations.UnrecognisedNonAluOpcodeHangs : Prop :=
  (∀ (ir : Byte) (s : State), exec (.unrecognisedNonAlu ir) s = .next s) ∧
  ∀ (s : State) (ir : Byte), s.status = .running → s.fetchInstr = .unrecognisedNonAlu ir →
    Hangs s ∧ ∀ k : Nat, Host.Core.run Sys2Proof.core k s = .next s
end

