-- ==== Sys2Proof/Laws/Arith.lean ====
section
/-! SUPPORT. The arithmetic helpers as natural numbers (00_scope.md R15). -/

namespace Sys2Proof.Machine

variable (a b : Byte)

theorem add8_toNat : (add8 a b).toNat = (a.toNat + b.toNat) % 256 := by
  simp [add8]

theorem sub8_toNat : (sub8 a b).toNat = (a.toNat + 256 - b.toNat) % 256 := by
  have := a.isLt; have := b.isLt
  simp only [sub8, BitVec.toNat_ofInt]
  omega

theorem mul8_toNat : (mul8 a b).toNat = (a.toNat * b.toNat) % 256 := by
  simp [mul8]

theorem div8_toNat : (div8 a b).toNat = a.toNat / b.toNat := by
  rw [div8, BitVec.toNat_ofNat]
  exact Nat.mod_eq_of_lt (Nat.lt_of_le_of_lt (Nat.div_le_self _ _) a.isLt)

theorem add8_eq_add : add8 a b = a + b := by
  apply BitVec.eq_of_toNat_eq; simp [add8_toNat]

theorem dec8_eq_sub : dec8 a = a - 1 := by
  apply BitVec.eq_of_toNat_eq
  have := a.isLt
  simp only [dec8, sub8_toNat, BitVec.toNat_sub, BitVec.reduceToNat]
  omega

theorem inc8_eq_add : inc8 a = a + 1 := add8_eq_add a 1

/-- A push and a pop leave the stack pointer where it was (41_data_movement.md R103). -/
@[simp] theorem inc8_dec8 : inc8 (dec8 a) = a := by
  rw [inc8_eq_add, dec8_eq_sub]; exact BitVec.sub_add_cancel a 1

end Sys2Proof.Machine
end

