-- ==== Sys2Proof/Laws/Decode.lean ====
section
/-! SUPPORT. The decoder by opcode value: which list of R67 to R70 (30_encoding.md) an opcode falls under. -/

namespace Sys2Proof

/-- The class test of R83 is the range 0xA0 to 0xBF. -/
theorem isAluClass_iff (ir : Byte) : isAluClass ir = true ↔ 0xA0 ≤ ir.toNat ∧ ir.toNat ≤ 0xBF := by
  revert ir; decide

/-- An opcode of R69's list is of the ALU class and none of the five operations. -/
theorem decodeFetched_undefinedAlu (ir op1 op2 : Byte) (h : undefinedAluOpcode ir = true) :
    decodeFetched ir op1 op2 = .unrecognisedAlu ir := by
  have key : ∀ ir : Byte, undefinedAluOpcode ir = true →
      isAluClass ir = true ∧ ir ≠ 0xA0 ∧ ir ≠ 0xA1 ∧ ir ≠ 0xA2 ∧ ir ≠ 0xA3 ∧ ir ≠ 0xA7 := by decide
  obtain ⟨hc, h0, h1, h2, h3, h7⟩ := key ir h
  rw [decodeFetched, if_pos hc, decodeAlu, if_neg h0, if_neg h1, if_neg h2, if_neg h3, if_neg h7]

/-- An opcode of R70's list is outside the ALU class and none of the ten instructions. -/
theorem decodeFetched_undefinedNonAlu (ir op1 op2 : Byte) (h : undefinedNonAluOpcode ir = true) :
    decodeFetched ir op1 op2 = .unrecognisedNonAlu ir := by
  have key : ∀ ir : Byte, undefinedNonAluOpcode ir = true →
      isAluClass ir = false ∧ ir ≠ 0x82 ∧ ir ≠ 0x47 ∧ ir ≠ 0x01 ∧ ir ≠ 0x45 ∧ ir ≠ 0x46 ∧ ir ≠ 0x50 ∧ ir ≠ 0x11 ∧
        ir ≠ 0x54 ∧ ir ≠ 0x55 ∧ ir ≠ 0x56 := by decide
  obtain ⟨hc, h82, h47, h01, h45, h46, h50, h11, h54, h55, h56⟩ := key ir h
  rw [decodeFetched, if_neg (by simp [hc]), decodeNonAlu, if_neg h82, if_neg h47, if_neg h01, if_neg h45, if_neg h46,
    if_neg h50, if_neg h11, if_neg h54, if_neg h55, if_neg h56]

/-- Every opcode value is one of the 15 defined ones or falls under R69 or R70 (R86: exactly one reading). -/
theorem opcode_cases (ir : Byte) :
    ir ∈ ([0x82, 0x47, 0x01, 0x45, 0x46, 0x50, 0x11, 0x54, 0x55, 0x56, 0xA0, 0xA1, 0xA2, 0xA3, 0xA7] : List Byte) ∨
      undefinedAluOpcode ir = true ∨ undefinedNonAluOpcode ir = true := by
  revert ir; decide

/-- Three bytes always decode, to what the engine reads from them (R89). -/
theorem decode_fetched (ir op1 op2 : Byte) : decode [ir, op1, op2] = .ok (decodeFetched ir op1 op2) := by
  have key : ∀ ir : Byte, ¬ 2 < operandCount ir := by decide
  simp [decode, key ir]

end Sys2Proof
end

