-- ==== Sys2Proof/Laws/State.lean ====
section
/-! SUPPORT. One lemma per field per update of State, true by `rfl`, and what each accessor reads after each
update, so that no later proof unfolds a record update. -/

namespace Sys2Proof.Machine

variable (s : State) (i j : RegIdx) (v a t : Byte) (q : Status) (k : FaultKind)

/-! ## The register file -/

theorem Regs.get_set (r : Regs) : (r.set i v).get j = if j = i then v else r.get j := by
  revert i j; intro i j
  fin_cases i <;> fin_cases j <;> rfl

@[simp] theorem Regs.get_set_self (r : Regs) : (r.set i v).get i = v := by
  simp [Regs.get_set]

/-- Two register files that read alike are the same. -/
@[ext] theorem Regs.ext_get {r r' : Regs} (h : ∀ i, r.get i = r'.get i) : r = r' := by
  have h0 := h 0; have h1 := h 1; have h2 := h 2; have h3 := h 3
  have h4 := h 4; have h5 := h 5; have h6 := h 6; have h7 := h 7
  cases r; cases r'
  simp only [Regs.get] at h0 h1 h2 h3 h4 h5 h6 h7
  subst_vars; rfl

/-! ## `setReg` -/

@[simp] theorem State.setReg_regs : (s.setReg i v).regs = s.regs.set i v := rfl
@[simp] theorem State.setReg_pc : (s.setReg i v).pc = s.pc := rfl
@[simp] theorem State.setReg_fl : (s.setReg i v).fl = s.fl := rfl
@[simp] theorem State.setReg_status : (s.setReg i v).status = s.status := rfl
@[simp] theorem State.setReg_mem : (s.setReg i v).mem = s.mem := rfl
@[simp] theorem State.setReg_out : (s.setReg i v).out = s.out := rfl
@[simp] theorem State.setReg_readMem : (s.setReg i v).readMem a = s.readMem a := rfl
@[simp] theorem State.setReg_flagE : (s.setReg i v).flagE = s.flagE := rfl
@[simp] theorem State.setReg_pcPlus : (s.setReg i v).pcPlus a = s.pcPlus a := rfl

theorem State.getReg_setReg : (s.setReg i v).getReg j = if j = i then v else s.getReg j :=
  Regs.get_set i j v s.regs

@[simp] theorem State.getReg_setReg_self : (s.setReg i v).getReg i = v := by
  simp [State.getReg_setReg]

/-! ## `setSp`, which is `setReg` of register 7 (R22) -/

@[simp] theorem State.setSp_regs : (s.setSp v).regs = s.regs.set 7 v := rfl
@[simp] theorem State.setSp_flagE : (s.setSp v).flagE = s.flagE := rfl
@[simp] theorem State.setSp_pc : (s.setSp v).pc = s.pc := rfl
@[simp] theorem State.setSp_fl : (s.setSp v).fl = s.fl := rfl
@[simp] theorem State.setSp_status : (s.setSp v).status = s.status := rfl
@[simp] theorem State.setSp_mem : (s.setSp v).mem = s.mem := rfl
@[simp] theorem State.setSp_out : (s.setSp v).out = s.out := rfl
@[simp] theorem State.setSp_readMem : (s.setSp v).readMem a = s.readMem a := rfl
@[simp] theorem State.setSp_pcPlus : (s.setSp v).pcPlus a = s.pcPlus a := rfl
@[simp] theorem State.setSp_sp : (s.setSp v).sp = v := State.getReg_setReg_self s Config.spIndex v

theorem State.getReg_setSp : (s.setSp v).getReg j = if j = 7 then v else s.getReg j :=
  State.getReg_setReg s Config.spIndex j v

theorem State.sp_eq_getReg : s.sp = s.getReg 7 := rfl

/-! ## `writeMem` (what it does to memory is in Laws/Memory.lean) -/

@[simp] theorem State.writeMem_regs : (s.writeMem a v).regs = s.regs := rfl
@[simp] theorem State.writeMem_pc : (s.writeMem a v).pc = s.pc := rfl
@[simp] theorem State.writeMem_fl : (s.writeMem a v).fl = s.fl := rfl
@[simp] theorem State.writeMem_status : (s.writeMem a v).status = s.status := rfl
@[simp] theorem State.writeMem_out : (s.writeMem a v).out = s.out := rfl
@[simp] theorem State.writeMem_getReg : (s.writeMem a v).getReg i = s.getReg i := rfl
@[simp] theorem State.writeMem_sp : (s.writeMem a v).sp = s.sp := rfl
@[simp] theorem State.writeMem_flagE : (s.writeMem a v).flagE = s.flagE := rfl
@[simp] theorem State.writeMem_pcPlus : (s.writeMem a v).pcPlus t = s.pcPlus t := rfl
@[simp] theorem State.writeMem_mem : (s.writeMem a v).mem = Memory.write s.mem a.toNat v := rfl

/-! ## `setPc` and `advance` -/

@[simp] theorem State.setPc_regs : (s.setPc t).regs = s.regs := rfl
@[simp] theorem State.setPc_pc : (s.setPc t).pc = t := rfl
@[simp] theorem State.setPc_fl : (s.setPc t).fl = s.fl := rfl
@[simp] theorem State.setPc_status : (s.setPc t).status = s.status := rfl
@[simp] theorem State.setPc_mem : (s.setPc t).mem = s.mem := rfl
@[simp] theorem State.setPc_out : (s.setPc t).out = s.out := rfl
@[simp] theorem State.setPc_getReg : (s.setPc t).getReg i = s.getReg i := rfl
@[simp] theorem State.setPc_sp : (s.setPc t).sp = s.sp := rfl
@[simp] theorem State.setPc_flagE : (s.setPc t).flagE = s.flagE := rfl
@[simp] theorem State.setPc_readMem : (s.setPc t).readMem a = s.readMem a := rfl

@[simp] theorem State.advance_regs : (s.advance t).regs = s.regs := rfl
@[simp] theorem State.advance_pc : (s.advance t).pc = add8 s.pc t := rfl
@[simp] theorem State.advance_fl : (s.advance t).fl = s.fl := rfl
@[simp] theorem State.advance_status : (s.advance t).status = s.status := rfl
@[simp] theorem State.advance_mem : (s.advance t).mem = s.mem := rfl
@[simp] theorem State.advance_out : (s.advance t).out = s.out := rfl
@[simp] theorem State.advance_getReg : (s.advance t).getReg i = s.getReg i := rfl
@[simp] theorem State.advance_sp : (s.advance t).sp = s.sp := rfl
@[simp] theorem State.advance_flagE : (s.advance t).flagE = s.flagE := rfl
@[simp] theorem State.advance_readMem : (s.advance t).readMem a = s.readMem a := rfl

/-! ## `setFl`, `emit`, `setStatus` -/

@[simp] theorem State.setFl_regs : (s.setFl v).regs = s.regs := rfl
@[simp] theorem State.setFl_pc : (s.setFl v).pc = s.pc := rfl
@[simp] theorem State.setFl_fl : (s.setFl v).fl = v := rfl
@[simp] theorem State.setFl_status : (s.setFl v).status = s.status := rfl
@[simp] theorem State.setFl_mem : (s.setFl v).mem = s.mem := rfl
@[simp] theorem State.setFl_out : (s.setFl v).out = s.out := rfl
@[simp] theorem State.setFl_getReg : (s.setFl v).getReg i = s.getReg i := rfl
@[simp] theorem State.setFl_sp : (s.setFl v).sp = s.sp := rfl
@[simp] theorem State.setFl_readMem : (s.setFl v).readMem a = s.readMem a := rfl

@[simp] theorem State.emit_regs : (s.emit v).regs = s.regs := rfl
@[simp] theorem State.emit_pc : (s.emit v).pc = s.pc := rfl
@[simp] theorem State.emit_fl : (s.emit v).fl = s.fl := rfl
@[simp] theorem State.emit_status : (s.emit v).status = s.status := rfl
@[simp] theorem State.emit_mem : (s.emit v).mem = s.mem := rfl
@[simp] theorem State.emit_out : (s.emit v).out = s.out ++ [v] := rfl
@[simp] theorem State.emit_getReg : (s.emit v).getReg i = s.getReg i := rfl
@[simp] theorem State.emit_sp : (s.emit v).sp = s.sp := rfl
@[simp] theorem State.emit_flagE : (s.emit v).flagE = s.flagE := rfl
@[simp] theorem State.emit_readMem : (s.emit v).readMem a = s.readMem a := rfl

@[simp] theorem State.setStatus_regs : (s.setStatus q).regs = s.regs := rfl
@[simp] theorem State.setStatus_pc : (s.setStatus q).pc = s.pc := rfl
@[simp] theorem State.setStatus_fl : (s.setStatus q).fl = s.fl := rfl
@[simp] theorem State.setStatus_status : (s.setStatus q).status = q := rfl
@[simp] theorem State.setStatus_mem : (s.setStatus q).mem = s.mem := rfl
@[simp] theorem State.setStatus_out : (s.setStatus q).out = s.out := rfl
@[simp] theorem State.setStatus_getReg : (s.setStatus q).getReg i = s.getReg i := rfl
@[simp] theorem State.setStatus_sp : (s.setStatus q).sp = s.sp := rfl
@[simp] theorem State.setStatus_flagE : (s.setStatus q).flagE = s.flagE := rfl
@[simp] theorem State.setStatus_readMem : (s.setStatus q).readMem a = s.readMem a := rfl
@[simp] theorem State.setStatus_pcPlus : (s.setStatus q).pcPlus a = s.pcPlus a := rfl

/-- Everything `raise` does: a next state that differs in the status alone (R156). -/
theorem raise_eq : raise k v s = .next (s.setStatus (.faulted k v)) := rfl

end Sys2Proof.Machine
end

