-- ==== Sys2Proof/Laws/Memory.lean ====
section
/-! SUPPORT. The laws of memory: a read gives the latest write to that cell, a write changes no other cell
(20_memory.md R41, R42), and every memory operation keeps the canonical form. -/

namespace Sys2Proof.Machine

/-! ## Reading after writing -/

theorem Memory.read_erase (m : Memory) (a b : Nat) :
    Memory.read (Memory.erase m a) b = if b = a then Config.memReset else Memory.read m b := by
  induction m with
  | nil => simp [Memory.erase, Memory.read]
  | cons c m ih =>
    by_cases hc : c.1 = a <;> by_cases hb : c.1 = b <;> simp_all [Memory.erase, Memory.read]

theorem Memory.read_insert (m : Memory) (a b : Nat) (v : Byte) (h : Memory.erase m a = m) :
    Memory.read (Memory.insert m a v) b = if b = a then v else Memory.read m b := by
  induction m with
  | nil => by_cases hb : a = b <;> simp [Memory.insert, Memory.read, hb, eq_comm]
  | cons c m ih =>
    have hne : c.1 ≠ a := by
      intro hc
      have hlen : (Memory.erase m a).length ≤ m.length := by
        clear ih h; induction m with
        | nil => simp [Memory.erase]
        | cons d m ih => simp only [Memory.erase]; split <;> simp <;> omega
      have := congrArg List.length h
      simp [Memory.erase, hc] at this
      omega
    have hm : Memory.erase m a = m := by simpa [Memory.erase, hne] using h
    simp only [Memory.insert]
    split
    · by_cases hb : b = a
      · subst hb; simp [Memory.read]
      · simp [Memory.read, hb, Ne.symm hb]
    · by_cases hb : c.1 = b
      · have : b ≠ a := by omega
        simp [Memory.read, hb, this]
      · simp [Memory.read, hb, ih hm]

theorem Memory.erase_erase (m : Memory) (a : Nat) :
    Memory.erase (Memory.erase m a) a = Memory.erase m a := by
  induction m with
  | nil => rfl
  | cons c m ih => by_cases hc : c.1 = a <;> simp [Memory.erase, hc, ih]

/-- The law of memory, for every list of cells whatever its form. -/
theorem Memory.read_write (m : Memory) (a b : Nat) (v : Byte) :
    Memory.read (Memory.write m a v) b = if b = a then v else Memory.read m b := by
  unfold Memory.write
  split
  · next h => rw [Memory.read_erase, h]
  · rw [Memory.read_insert _ _ _ _ (Memory.erase_erase m a), Memory.read_erase]
    split <;> simp_all

theorem State.readMem_writeMem (s : State) (a b v : Byte) :
    (s.writeMem a v).readMem b = if b = a then v else s.readMem b := by
  simp [State.readMem, State.writeMem, Memory.read_write, BitVec.toNat_inj]

@[simp] theorem State.readMem_writeMem_self (s : State) (a v : Byte) :
    (s.writeMem a v).readMem a = v := by
  simp [State.readMem_writeMem]

theorem State.readMem_writeMem_ne (s : State) {a b : Byte} (v : Byte) (h : b ≠ a) :
    (s.writeMem a v).readMem b = s.readMem b := by
  simp [State.readMem_writeMem, h]

/-! ## The canonical form -/

theorem Memory.wfFrom_cons (lo : Nat) (c : Host.Cell) (m : Memory) :
    Memory.wfFrom lo (c :: m) = true ↔
      lo ≤ c.1 ∧ c.1 < Config.memSize ∧ c.2 ≠ Config.memReset ∧ Memory.wfFrom (c.1 + 1) m = true := by
  simp [Memory.wfFrom, and_assoc]

theorem Memory.wfFrom_mono {lo lo' : Nat} {m : Memory} (h : lo ≤ lo') (hm : Memory.wfFrom lo' m = true) :
    Memory.wfFrom lo m = true := by
  cases m with
  | nil => rfl
  | cons c m => rw [Memory.wfFrom_cons] at *; exact ⟨by omega, hm.2⟩

theorem Memory.wfFrom_erase {m : Memory} {a : Nat} : ∀ {lo : Nat}, Memory.wfFrom lo m = true →
    Memory.wfFrom lo (Memory.erase m a) = true := by
  induction m with
  | nil => simp [Memory.erase]
  | cons c m ih =>
    intro lo h
    rw [Memory.wfFrom_cons] at h
    simp only [Memory.erase]
    split
    · exact Memory.wfFrom_mono (by omega) (ih h.2.2.2)
    · exact (Memory.wfFrom_cons ..).2 ⟨h.1, h.2.1, h.2.2.1, ih h.2.2.2⟩

theorem Memory.wfFrom_insert {m : Memory} {a : Nat} {v : Byte} (ha : a < Config.memSize)
    (hv : v ≠ Config.memReset) : ∀ {lo : Nat}, lo ≤ a → Memory.wfFrom lo m = true → Memory.erase m a = m →
    Memory.wfFrom lo (Memory.insert m a v) = true := by
  induction m with
  | nil => intro lo hlo _ _; simp [Memory.insert, Memory.wfFrom, hlo, ha, hv]
  | cons c m ih =>
    intro lo hlo h he
    have hne : c.1 ≠ a := by
      intro hc
      have := Memory.wfFrom_erase (a := a) ((Memory.wfFrom_cons ..).1 h).2.2.2
      rw [Memory.erase, if_pos hc] at he
      rw [he, Memory.wfFrom_cons] at this
      omega
    have hm : Memory.erase m a = m := by simpa [Memory.erase, hne] using he
    rw [Memory.wfFrom_cons] at h
    simp only [Memory.insert]
    split
    · next hlt =>
      exact (Memory.wfFrom_cons ..).2 ⟨hlo, ha, hv, (Memory.wfFrom_cons ..).2 ⟨hlt, h.2⟩⟩
    · exact (Memory.wfFrom_cons ..).2 ⟨h.1, h.2.1, h.2.2.1, ih (by omega) h.2.2.2 hm⟩

/-- A write to an existing cell keeps the canonical form. -/
theorem Memory.wf_write {m : Memory} {a : Nat} {v : Byte} (ha : a < Config.memSize) (h : Memory.wf m = true) :
    Memory.wf (Memory.write m a v) = true := by
  unfold Memory.write
  split
  · exact Memory.wfFrom_erase h
  · next hv => exact Memory.wfFrom_insert ha hv (Nat.zero_le a) (Memory.wfFrom_erase h) (Memory.erase_erase m a)

theorem State.writeMem_wf {s : State} (a v : Byte) (h : Memory.wf s.mem = true) :
    Memory.wf (s.writeMem a v).mem = true :=
  Memory.wf_write a.isLt h

theorem State.reset_mem_wf : Memory.wf State.reset.mem = true := rfl

/-- Loading bytes that fit keeps the canonical form. -/
theorem loadFrom_wf {img : List Byte} : ∀ {a : Nat} {m : Memory}, a + img.length ≤ Config.memSize →
    Memory.wf m = true → Memory.wf (loadFrom a img m) = true := by
  induction img with
  | nil => intro a m _ h; exact h
  | cons b img ih =>
    intro a m ha h
    simp only [List.length_cons] at ha
    exact ih (by omega) (Memory.wf_write (by omega) h)

/-- What loading leaves in a cell: the image where it lies, what was there elsewhere (50_interfaces.md R141). -/
theorem read_loadFrom (img : List Byte) : ∀ (a : Nat) (m : Memory) (b : Nat),
    Memory.read (loadFrom a img m) b =
      if a ≤ b ∧ b < a + img.length then img.getD (b - a) 0 else Memory.read m b := by
  induction img with
  | nil => intro a m b; simp only [loadFrom, List.length_nil]; rw [if_neg (by omega)]
  | cons c img ih =>
    intro a m b
    simp only [loadFrom, ih, Memory.read_write, List.length_cons]
    by_cases hb : b = a
    · subst hb; simp
    · by_cases hr : a ≤ b ∧ b < a + (img.length + 1)
      · rw [if_pos (by omega), if_pos hr]
        obtain ⟨d, hd⟩ : ∃ d, b - a = d + 1 := ⟨b - a - 1, by omega⟩
        rw [hd, show b - (a + 1) = d by omega]; rfl
      · rw [if_neg (by omega), if_neg hr, if_neg hb]

end Sys2Proof.Machine
end

