-- ==== Sys2Proof/Laws/Operands.lean ====
section
/-! SUPPORT. Everything a checked register operand can do (10_state.md R23). -/

namespace Sys2Proof.Machine

variable {b : Byte} {i : RegIdx} {s t : State}

theorem regIndex?_eq_none : regIndex? b = none ↔ 7 < b.toNat := by
  unfold regIndex?; split <;> simp <;> omega

theorem regIndex?_eq_some : regIndex? b = some i ↔ b.toNat = i.val := by
  unfold regIndex?
  split
  · simp [Fin.ext_iff]
  · have := i.isLt
    simp; omega

/-- Above 7 the operand raises `RegisterIndex`. -/
theorem withReg_raises (k : RegIdx → Result) (h : 7 < b.toNat) : withReg b s k = raise .registerIndex b s := by
  rw [withReg, regIndex?_eq_none.2 h]

/-- In 0 to 7 the instruction goes on with the register named. -/
theorem withReg_names (k : RegIdx → Result) (h : b.toNat = i.val) : withReg b s k = k i := by
  rw [withReg, regIndex?_eq_some.2 h]

/-- The byte of a register number names that register. -/
theorem byte_cases (b : Byte) : 7 < b.toNat ∨ ∃ i : RegIdx, b.toNat = i.val := by
  by_cases h : 7 < b.toNat
  · exact .inl h
  · exact .inr ⟨⟨b.toNat, by omega⟩, rfl⟩

/-- Inversion: an instruction with one checked register either raised or went on with it. -/
theorem withReg_eq_next {k : RegIdx → Result} (h : withReg b s k = .next t) :
    (7 < b.toNat ∧ t = s.setStatus (.faulted .registerIndex b)) ∨ ∃ i, b.toNat = i.val ∧ k i = .next t := by
  rcases byte_cases b with hb | ⟨i, hi⟩
  · rw [withReg_raises k hb, raise_eq] at h
    exact .inl ⟨hb, (Host.Outcome.next.inj h).symm⟩
  · exact .inr ⟨i, hi, by rwa [withReg_names k hi] at h⟩

/-- Inversion for two checked registers; the first is checked first (60_exceptions.md R155). -/
theorem withRegs_eq_next {a b : Byte} {k : RegIdx → RegIdx → Result} (h : withRegs a b s k = .next t) :
    (7 < a.toNat ∧ t = s.setStatus (.faulted .registerIndex a)) ∨
    (a.toNat ≤ 7 ∧ 7 < b.toNat ∧ t = s.setStatus (.faulted .registerIndex b)) ∨
    ∃ i j, a.toNat = i.val ∧ b.toNat = j.val ∧ k i j = .next t := by
  rcases withReg_eq_next h with h | ⟨i, hi, h⟩
  · exact .inl h
  · rcases withReg_eq_next h with ⟨hb, ht⟩ | ⟨j, hj, h⟩
    · exact .inr (.inl ⟨by omega, hb, ht⟩)
    · exact .inr (.inr ⟨i, j, hi, hj, h⟩)

/-- Both registers named: the instruction goes on with them. -/
theorem withRegs_names {a b : Byte} {i j : RegIdx} (k : RegIdx → RegIdx → Result) (ha : a.toNat = i.val)
    (hb : b.toNat = j.val) : withRegs a b s k = k i j := by
  rw [withRegs, withReg_names _ ha, withReg_names _ hb]

theorem withRegs_raises_left {a b : Byte} (k : RegIdx → RegIdx → Result) (ha : 7 < a.toNat) :
    withRegs a b s k = raise .registerIndex a s := by
  rw [withRegs, withReg_raises _ ha]

theorem withRegs_raises_right {a b : Byte} (k : RegIdx → RegIdx → Result) (ha : a.toNat ≤ 7) (hb : 7 < b.toNat) :
    withRegs a b s k = raise .registerIndex b s := by
  rw [withRegs, withReg_names (i := ⟨a.toNat, by omega⟩) _ rfl, withReg_raises _ hb]

/-- Two states that a map `g` of states relates, at the fault and at what follows the check, answer alike. For
claims that an instruction does not read some part of the state. -/
theorem withReg_transport {s s' t : State} {b : Byte} {k k' : RegIdx → Result} (g : State → State)
    (hraise : ∀ q, g (s.setStatus q) = s'.setStatus q)
    (hk : ∀ i, k i = .next t → k' i = .next (g t)) (h : withReg b s k = .next t) :
    withReg b s' k' = .next (g t) := by
  rcases withReg_eq_next h with ⟨hb, rfl⟩ | ⟨i, hi, h⟩
  · rw [withReg_raises _ hb, raise_eq, hraise]
  · rw [withReg_names _ hi]; exact hk i h

end Sys2Proof.Machine
end

