-- ==== Sys2Proof/Laws/Frames.lean ====
section
/-! SUPPORT. What the shared operations leave unchanged, in the words of Safety.lean. -/

namespace Sys2Proof.Machine

/-- `raise` is a precise fault (60_exceptions.md R156). -/
theorem raise_raisesFrom (k : FaultKind) (info : Byte) (s : State) : RaisesFrom (raise k info s) k info s :=
  ⟨_, rfl, rfl, fun _ _ => rfl, fun _ => rfl, rfl, rfl, rfl⟩

/-- A checked operand above 7 is a precise `RegisterIndex` fault (10_state.md R23). -/
theorem withReg_raisesFrom {b : Byte} (s : State) (k : RegIdx → Result) (h : 7 < b.toNat) :
    RaisesFrom (withReg b s k) .registerIndex b s :=
  withReg_raises (s := s) k h ▸ raise_raisesFrom _ _ _

/-- A register write keeps every other register. -/
theorem State.setReg_regsKept (s : State) (i : RegIdx) (v : Byte) : RegsKeptExcept [i] s (s.setReg i v) := by
  intro j hj
  rw [State.getReg_setReg, if_neg (by simpa using hj)]

/-- A write of the stack pointer keeps every other register. -/
theorem State.setSp_regsKept (s : State) (v : Byte) : RegsKeptExcept [7] s (s.setSp v) :=
  State.setReg_regsKept s 7 v

/-- A store keeps every other byte (20_memory.md R42). -/
theorem State.writeMem_memKept (s : State) (a v : Byte) : MemKeptExcept a s (s.writeMem a v) :=
  fun _ hb => State.readMem_writeMem_ne s v hb

/-- The cell below the stack, as a number (20_memory.md R45, R52 W4). -/
theorem State.pushAddress_toNat (s : State) : s.pushAddress.toNat = ((s.getReg 7).toNat + 255) % 256 := by
  simp [State.pushAddress, dec8, sub8_toNat, State.sp_eq_getReg]

/-- The advance, as a number (20_memory.md R52 W2). -/
theorem State.advance_pc_toNat (s : State) (n : Byte) : (s.advance n).pc.toNat = (s.pc.toNat + n.toNat) % 256 :=
  add8_toNat s.pc n

end Sys2Proof.Machine
end

