-- ==== Sys2Proof/Laws/PerInstr.lean ====
section
/-! SUPPORT. Per-instruction facts, one lemma per constructor of Instr. -/

namespace Sys2Proof.Laws.EncodeShape

/-- The bytes of an instruction: one to three of them (30_encoding.md R60), as many as its length where it has
one (R62), and just the opcode byte where it has none (R70). -/
def Statement (i : Instr) : Prop :=
  1 ≤ (encode i).length ∧ (encode i).length ≤ 3 ∧ (encode i).length = i.length?.getD 1

theorem ldi (r v : Byte) : Statement (.ldi r v) := by simp [Statement, encode, Instr.length?]
theorem prn (r : Byte) : Statement (.prn r) := by simp [Statement, encode, Instr.length?]
theorem hlt : Statement .hlt := by simp [Statement, encode, Instr.length?]
theorem push (r : Byte) : Statement (.push r) := by simp [Statement, encode, Instr.length?]
theorem pop (r : Byte) : Statement (.pop r) := by simp [Statement, encode, Instr.length?]
theorem call (r : Byte) : Statement (.call r) := by simp [Statement, encode, Instr.length?]
theorem ret : Statement .ret := by simp [Statement, encode, Instr.length?]
theorem jmp (r : Byte) : Statement (.jmp r) := by simp [Statement, encode, Instr.length?]
theorem jeq (r : Byte) : Statement (.jeq r) := by simp [Statement, encode, Instr.length?]
theorem jne (r : Byte) : Statement (.jne r) := by simp [Statement, encode, Instr.length?]
theorem add (a b : Byte) : Statement (.add a b) := by simp [Statement, encode, Instr.length?]
theorem sub (a b : Byte) : Statement (.sub a b) := by simp [Statement, encode, Instr.length?]
theorem mul (a b : Byte) : Statement (.mul a b) := by simp [Statement, encode, Instr.length?]
theorem div (a b : Byte) : Statement (.div a b) := by simp [Statement, encode, Instr.length?]
theorem cmp (a b : Byte) : Statement (.cmp a b) := by simp [Statement, encode, Instr.length?]
theorem unrecognisedAlu (op : Byte) : Statement (.unrecognisedAlu op) := by simp [Statement, encode, Instr.length?]
theorem unrecognisedNonAlu (op : Byte) : Statement (.unrecognisedNonAlu op) := by
  simp [Statement, encode, Instr.length?]

end Sys2Proof.Laws.EncodeShape
end

