-- ==== Sys2Proof/Laws/Step.lean ====
section
/-! SUPPORT. Said once: everything a step can do. A proof about all steps is a case split on `Effect`. -/

namespace Sys2Proof.Machine

/-- Why an instruction raises, with the byte it records (60_exceptions.md R150). -/
inductive FaultCause (s : State) : Instr → FaultKind → Byte → Prop where
  | aluDecode (op : Byte) : FaultCause s (.unrecognisedAlu op) .aluDecode op
  | registerIndex {i : Instr} {b : Byte} (h : (accessedRegs s i).find? (fun b => decide (7 < b.toNat)) = some b) :
      FaultCause s i .registerIndex b
  | divideByZero {a b : Byte} {i j : RegIdx} (ha : a.toNat = i.val) (hb : b.toNat = j.val) (h0 : s.getReg j = 0) :
      FaultCause s (.div a b) .divideByZero s.pc

/-- The register bytes an instruction accesses are among its register operands. -/
theorem mem_regOperands_of_mem_accessedRegs {s : State} {i : Instr} {b : Byte} (h : b ∈ accessedRegs s i) :
    b ∈ regOperands i := by
  cases i
  case jeq | jne =>
    simp only [accessedRegs] at h
    split at h <;> simp_all [regOperands]
  all_goals exact h

/-- What raises is a condition of R150. -/
theorem FaultCause.meetsFault {s : State} {i : Instr} {k : FaultKind} {info : Byte} (h : FaultCause s i k info) :
    MeetsFault s i := by
  cases h with
  | aluDecode => exact .inl ⟨_, rfl⟩
  | registerIndex h => exact .inr (.inl ⟨_, List.mem_of_find?_eq_some h, by simpa using List.find?_some h⟩)
  | @divideByZero a b i j ha hb h0 =>
    refine .inr (.inr ⟨fun c hc => ?_, _, _, _, rfl, hb, h0⟩)
    have := i.isLt
    have := j.isLt
    simp only [accessedRegs, List.mem_cons, List.not_mem_nil, or_false] at hc
    rcases hc with rfl | rfl <;> omega

/-- The contract leaves no condition of R150 open. -/
theorem KeepsContract.not_meetsFault {s : State} (h : KeepsContract s) : ¬ MeetsFault s s.fetchInstr := by
  obtain ⟨hr, -, hd, h0⟩ := h
  rintro (⟨op, hi⟩ | ⟨b, hb, h7⟩ | ⟨-, hz⟩)
  · rw [hi] at hd; cases hd
  · exact absurd (hr b (mem_regOperands_of_mem_accessedRegs hb)) (Nat.not_le.2 h7)
  · exact h0 hz

/-- The next states of an instruction: the fault latched and nothing else changed, or its own effect. -/
inductive Effect (s : State) : Instr → State → Prop where
  | raised {i : Instr} {k : FaultKind} {info : Byte} (h : FaultCause s i k info) :
      Effect s i (s.setStatus (.faulted k info))
  | ldi {r : Byte} {i : RegIdx} (v : Byte) (h : r.toNat = i.val) : Effect s (.ldi r v) ((s.setReg i v).advance 3)
  | prn {r : Byte} {i : RegIdx} (h : r.toNat = i.val) : Effect s (.prn r) ((s.emit (s.getReg i)).advance 2)
  | hlt : Effect s .hlt (s.setStatus .halted)
  | push {r : Byte} {i : RegIdx} (h : r.toNat = i.val) :
      Effect s (.push r)
        (((s.setSp s.pushAddress).writeMem s.pushAddress ((s.setSp s.pushAddress).getReg i)).advance 2)
  | pop {r : Byte} {i : RegIdx} (h : r.toNat = i.val) :
      Effect s (.pop r)
        (((s.setReg i (s.readMem s.sp)).setSp (inc8 (s.setReg i (s.readMem s.sp)).sp)).advance 2)
  | call {r : Byte} {i : RegIdx} (h : r.toNat = i.val) :
      Effect s (.call r)
        (((s.setSp s.pushAddress).writeMem s.pushAddress (s.pcPlus 2)).setPc ((s.setSp s.pushAddress).getReg i))
  | ret : Effect s .ret ((s.setPc (s.readMem s.sp)).setSp (inc8 s.sp))
  | jmp {r : Byte} {i : RegIdx} (h : r.toNat = i.val) : Effect s (.jmp r) (s.setPc (s.getReg i))
  | jeqTaken {r : Byte} {i : RegIdx} (hE : s.flagE = true) (h : r.toNat = i.val) :
      Effect s (.jeq r) (s.setPc (s.getReg i))
  | jeqNot {r : Byte} (hE : s.flagE = false) : Effect s (.jeq r) (s.advance 2)
  | jneTaken {r : Byte} {i : RegIdx} (hE : s.flagE = false) (h : r.toNat = i.val) :
      Effect s (.jne r) (s.setPc (s.getReg i))
  | jneNot {r : Byte} (hE : s.flagE = true) : Effect s (.jne r) (s.advance 2)
  | add {a b : Byte} {i j : RegIdx} (ha : a.toNat = i.val) (hb : b.toNat = j.val) :
      Effect s (.add a b) ((s.setReg i (add8 (s.getReg i) (s.getReg j))).advance 3)
  | sub {a b : Byte} {i j : RegIdx} (ha : a.toNat = i.val) (hb : b.toNat = j.val) :
      Effect s (.sub a b) ((s.setReg i (sub8 (s.getReg i) (s.getReg j))).advance 3)
  | mul {a b : Byte} {i j : RegIdx} (ha : a.toNat = i.val) (hb : b.toNat = j.val) :
      Effect s (.mul a b) ((s.setReg i (mul8 (s.getReg i) (s.getReg j))).advance 3)
  | div {a b : Byte} {i j : RegIdx} (ha : a.toNat = i.val) (hb : b.toNat = j.val) (h0 : s.getReg j ≠ 0) :
      Effect s (.div a b) ((s.setReg i (div8 (s.getReg i) (s.getReg j))).advance 3)
  | cmp {a b : Byte} {i j : RegIdx} (ha : a.toNat = i.val) (hb : b.toNat = j.val) :
      Effect s (.cmp a b) ((s.setFl (compareFlags (s.getReg i) (s.getReg j))).advance 3)
  | unrecognisedNonAlu (op : Byte) : Effect s (.unrecognisedNonAlu op) s

theorem next_inj {t u : State} (h : (.next t : Result) = .next u) : u = t :=
  (Host.Outcome.next.inj h).symm

/-- One register operand: raised because of it, or went on. -/
theorem effect_withReg {i : Instr} {r : Byte} {s t : State} {k : RegIdx → Result}
    (hacc : accessedRegs s i = [r]) (hk : ∀ j, r.toNat = j.val → k j = .next t → Effect s i t)
    (h : withReg r s k = .next t) : Effect s i t := by
  rcases withReg_eq_next h with ⟨hr, rfl⟩ | ⟨j, hj, h⟩
  · exact .raised (.registerIndex (by simp [hacc, hr]))
  · exact hk j hj h

/-- Two register operands: raised because of the first that is above 7, or went on. -/
theorem effect_withRegs {i : Instr} {a b : Byte} {s t : State} {k : RegIdx → RegIdx → Result}
    (hacc : accessedRegs s i = [a, b])
    (hk : ∀ m n, a.toNat = m.val → b.toNat = n.val → k m n = .next t → Effect s i t)
    (h : withRegs a b s k = .next t) : Effect s i t := by
  rcases withRegs_eq_next h with ⟨ha, rfl⟩ | ⟨ha, hb, rfl⟩ | ⟨m, n, ha, hb, h⟩
  · exact .raised (.registerIndex (by simp [hacc, ha]))
  · exact .raised (.registerIndex (by simp [hacc, hb, Nat.not_lt.2 ha]))
  · exact hk m n ha hb h

/-- Inversion of `exec`: a next state is one of the listed effects. -/
theorem exec_effect {i : Instr} {s t : State} (h : exec i s = .next t) : Effect s i t := by
  cases i with
  | ldi r v => exact effect_withReg rfl (fun j hj h => next_inj h ▸ .ldi v hj) h
  | prn r => exact effect_withReg rfl (fun j hj h => next_inj h ▸ .prn hj) h
  | hlt => exact next_inj h ▸ .hlt
  | push r => exact effect_withReg rfl (fun j hj h => next_inj h ▸ .push hj) h
  | pop r => exact effect_withReg rfl (fun j hj h => next_inj h ▸ .pop hj) h
  | call r => exact effect_withReg rfl (fun j hj h => next_inj h ▸ .call hj) h
  | ret => exact next_inj h ▸ .ret
  | jmp r => exact effect_withReg rfl (fun j hj h => next_inj h ▸ .jmp hj) h
  | jeq r =>
    simp only [exec, execJeq, branchIf] at h
    split at h
    · next hE => exact effect_withReg (by simp [accessedRegs, hE]) (fun j hj h => next_inj h ▸ .jeqTaken hE hj) h
    · next hE => exact next_inj h ▸ .jeqNot (by simpa using hE)
  | jne r =>
    simp only [exec, execJne, branchIf] at h
    split at h
    · next hE =>
      have hE : s.flagE = false := by simpa using hE
      exact effect_withReg (by simp [accessedRegs, hE]) (fun j hj h => next_inj h ▸ .jneTaken hE hj) h
    · next hE => exact next_inj h ▸ .jneNot (by simpa using hE)
  | add a b => exact effect_withRegs rfl (fun m n hm hn h => next_inj h ▸ .add hm hn) h
  | sub a b => exact effect_withRegs rfl (fun m n hm hn h => next_inj h ▸ .sub hm hn) h
  | mul a b => exact effect_withRegs rfl (fun m n hm hn h => next_inj h ▸ .mul hm hn) h
  | div a b =>
    refine effect_withRegs rfl (fun m n hm hn h => ?_) h
    split at h
    · next h0 => exact next_inj h ▸ .raised (.divideByZero hm hn h0)
    · next h0 => exact next_inj h ▸ .div hm hn h0
  | cmp a b => exact effect_withRegs rfl (fun m n hm hn h => next_inj h ▸ .cmp hm hn) h
  | unrecognisedAlu op => exact next_inj h ▸ .raised (.aluDecode op)
  | unrecognisedNonAlu op => exact next_inj h ▸ .unrecognisedNonAlu op

/-- While Running, a step is `exec` of the fetched instruction (R89). -/
theorem step_running {s : State} (h : s.status = .running) : step s = exec s.fetchInstr s := by
  rw [step, h]

/-- A step has a next state only while Running (R80). -/
theorem running_of_step {s t : State} (h : step s = .next t) : s.status = .running := by
  unfold step at h
  split at h
  · assumption
  · cases h
  · cases h

/-- Inversion of `step`: the engine was running, and the fetched instruction had one of the listed effects. The
instruction stands as a variable, so that a case split on the effect goes through. -/
theorem step_effect {s t : State} (h : step s = .next t) :
    s.status = .running ∧ ∃ i, s.fetchInstr = i ∧ Effect s i t := by
  have hr := running_of_step h
  exact ⟨hr, _, rfl, exec_effect (by rwa [step_running hr] at h)⟩

/-! ## Runs of the host's `Core.run` -/

theorem run_succ_of_next {s t : State} (k : Nat) (h : step s = .next t) :
    Host.Core.run Sys2Proof.core (k + 1) s = Host.Core.run Sys2Proof.core k t := by
  have h' : Sys2Proof.core.step s = .next t := h
  simp only [Host.Core.run, h']

theorem run_succ_of_fault {s : State} {r : Fault} (k : Nat) (h : step s = .fault r) :
    Host.Core.run Sys2Proof.core (k + 1) s = .fault r := by
  have h' : Sys2Proof.core.step s = .fault r := h
  simp only [Host.Core.run, h']

theorem run_succ_of_refused {s : State} {r : Refusal} (k : Nat) (h : step s = .refused r) :
    Host.Core.run Sys2Proof.core (k + 1) s = .refused r := by
  have h' : Sys2Proof.core.step s = .refused r := h
  simp only [Host.Core.run, h']

end Sys2Proof.Machine
end

