-- ==== Sys2Proof/Tests/Slice0.lean ====
section
/-! SUPPORT. The model's own tests. Expected results are the spec's: the encodings of 30_encoding.md R61, R67 and
R68 written out bit by bit, and the single-step vectors of 95_test_vectors.md, named by their numbers V<n>. The
theorems named witness_<Obligation> show a state and operands that meet the hypotheses of that statement. -/

namespace Sys2Proof.Tests

open Sys2Proof.Machine

/-- The next state of an answer, so that `decide` can compare it. -/
def nextOf (r : Result) : Option State :=
  match r with
  | .next t => some t
  | .fault _ => none
  | .refused _ => none

/-- A running machine with `bytes` from `pc` on, three at most, wrapping at the top of memory. -/
def start (pc : Byte) (bytes : List Byte) : State :=
  ({ State.reset with pc := pc }).storeAtPc (bytes.getD 0 0) (bytes.getD 1 0) (bytes.getD 2 0)

/-! ## The well-formedness check refuses -/

/-- Outside the ALU class (R69). -/
theorem test_wf_refuses_alu_out_of_class : (Instr.unrecognisedAlu 0xC0).wf = false := by decide
/-- A defined ALU opcode (R68). -/
theorem test_wf_refuses_alu_defined : (Instr.unrecognisedAlu 0xA7).wf = false := by decide
/-- An ALU-class opcode is none of R70's. -/
theorem test_wf_refuses_nonAlu_in_alu_class : (Instr.unrecognisedNonAlu 0xA4).wf = false := by decide
/-- A defined non-ALU opcode (R67). -/
theorem test_wf_refuses_nonAlu_defined : (Instr.unrecognisedNonAlu 0x82).wf = false := by decide

/-! ## Decoding words written out from R61, R67, R68 (second operand, first operand, opcode) -/

theorem test_decode_ldi : decodeTableWord 24 0b00001001_00000001_10000010 = some (.ldi 1 9) := by decide
theorem test_decode_prn : decodeTableWord 16 0b00000100_01000111 = some (.prn 4) := by decide
theorem test_decode_hlt : decodeTableWord 8 0b00000001 = some .hlt := by decide
theorem test_decode_push : decodeTableWord 16 0b00000010_01000101 = some (.push 2) := by decide
theorem test_decode_pop : decodeTableWord 16 0b11111111_01000110 = some (.pop 255) := by decide
theorem test_decode_call : decodeTableWord 16 0b00000111_01010000 = some (.call 7) := by decide
theorem test_decode_ret : decodeTableWord 8 0b00010001 = some .ret := by decide
theorem test_decode_jmp : decodeTableWord 16 0b00000110_01010100 = some (.jmp 6) := by decide
theorem test_decode_jeq : decodeTableWord 16 0b00000011_01010101 = some (.jeq 3) := by decide
theorem test_decode_jne : decodeTableWord 16 0b00000101_01010110 = some (.jne 5) := by decide
theorem test_decode_add : decodeTableWord 24 0b00000001_00000010_10100000 = some (.add 2 1) := by decide
theorem test_decode_sub : decodeTableWord 24 0b00000001_00000010_10100001 = some (.sub 2 1) := by decide
theorem test_decode_mul : decodeTableWord 24 0b00000001_00000010_10100010 = some (.mul 2 1) := by decide
theorem test_decode_div : decodeTableWord 24 0b00000001_00000010_10100011 = some (.div 2 1) := by decide
theorem test_decode_cmp : decodeTableWord 24 0b00000001_00000010_10100111 = some (.cmp 2 1) := by decide
/-- Neighbours of the five operations, and both ends of the undefined ranges of R69. -/
theorem test_decode_unrecognisedAlu : ([0xA4, 0xA6, 0xA8, 0xAF, 0xB0, 0xBF] : List Byte).all
    (fun op => decide (decodeFetched op 9 9 = .unrecognisedAlu op)) = true := by decide
/-- Values on either side of the ALU class and the zero fill (R70, R71). -/
theorem test_decode_unrecognisedNonAlu : ([0x00, 0x02, 0x65, 0x83, 0x9F, 0xC0, 0xFF] : List Byte).all
    (fun op => decide (decodeFetched op 9 9 = .unrecognisedNonAlu op)) = true := by decide
/-- Bits above a row's width read as zero operand bytes. -/
theorem test_decode_bits_above_width_are_zero : decodeTableWord 8 0xFFFF82 = some (.ldi 0 0) := by decide
theorem test_decode_refuses_no_bytes : (decode []).toOption = none := by decide
theorem test_decode_refuses_missing_operand : decode [0x82, 0x01] = .error (.missingOperand 0x82) := rfl

/-! ## Single steps, from 95_test_vectors.md -/

/-- V3: the immediate is not extended. -/
theorem test_ldi_immediate : (nextOf (step (start 0x10 [0x82, 3, 0xFF]))).map (fun t => (t.getReg 3, t.pc)) =
    some (0xFF, 0x13) := by decide
/-- V6: operand fetch and advance wrap; the second operand is the byte at address 0. -/
theorem test_ldi_wraps : (nextOf (step (start 0xFE [0x82, 3, 0x82]))).map (fun t => (t.getReg 3, t.pc)) =
    some (0x82, 0x01) := by decide
/-- V10. -/
theorem test_prn_stack_pointer : (nextOf (step (start 0 [0x47, 7]))).map (fun t => (t.out, t.pc)) =
    some ([244], 2) := by decide
/-- V11. -/
theorem test_prn_bad_register : (nextOf (step (start 0 [0x47, 9]))).map (fun t => (t.out, t.pc, t.status)) =
    some ([], 0, .faulted .registerIndex 9) := by decide
/-- V13: PUSH R7 stores the decremented stack pointer. -/
theorem test_push_sp : (nextOf (step (start 0 [0x45, 7]))).map (fun t => (t.getReg 7, t.readMem 0xF3, t.pc)) =
    some (0xF3, 0xF3, 2) := by decide
/-- V14: the push wraps at SP = 0. -/
theorem test_push_wraps : (nextOf (step (((start 4 [0x45, 0]).setReg 0 0x5A).setSp 0))).map
    (fun t => (t.sp, t.readMem 0xFF)) = some (0xFF, 0x5A) := by decide
/-- V17: the popped cell keeps its value. -/
theorem test_pop : (nextOf (step (((start 0x0F [0x46, 3]).setSp 0xF1).writeMem 0xF1 3))).map
    (fun t => (t.getReg 3, t.sp, t.pc, t.readMem 0xF1)) = some (3, 0xF2, 0x11, 3) := by decide
/-- V18: POP R7 is loaded, then incremented. -/
theorem test_pop_sp : (nextOf (step ((start 0 [0x46, 7]).writeMem 0xF4 0x20))).map (fun t => (t.sp, t.pc)) =
    some (0x21, 2) := by decide
/-- V30. -/
theorem test_hlt : (nextOf (step (start 0x0B [1]))).map (fun t => (t.status, t.pc)) =
    some (.halted, 0x0B) := by decide
/-- V32: the target of CALL R7 is read after the decrement. -/
theorem test_call_sp : (nextOf (step (start 0 [0x50, 7]))).map (fun t => (t.sp, t.readMem 0xF3, t.pc)) =
    some (0xF3, 2, 0xF3) := by decide
/-- V33: the return address wraps. -/
theorem test_call_return_wraps : (nextOf (step ((start 0xFE [0x50, 1]).setReg 1 0x40))).map
    (fun t => (t.sp, t.readMem 0xF3, t.pc)) = some (0xF3, 0, 0x40) := by decide
/-- V37: the stack pointer wraps at 0xFF. -/
theorem test_ret_wraps : (nextOf (step (((start 0x0E [0x11]).setSp 0xFF).writeMem 0xFF 0x33))).map
    (fun t => (t.pc, t.sp)) = some (0x33, 0) := by decide
/-- V38. -/
theorem test_jmp : (nextOf (step ((start 0x20 [0x54, 2]).setReg 2 0x0C))).map (fun t => t.pc) = some 0x0C := by decide
/-- V41 and V42. -/
theorem test_jeq : ([1, 2] : List Byte).map (fun f => (nextOf (step (((start 0x12 [0x55, 3]).setReg 3 0x30).setFl f))).map
    (fun t => t.pc)) = [some 0x30, some 0x14] := by decide
/-- V46: not taken, a bad register byte is not accessed. -/
theorem test_jeq_not_taken_bad_register : (nextOf (step ((start 0x12 [0x55, 9]).setFl 2))).map
    (fun t => (t.pc, t.status)) = some (0x14, .running) := by decide
/-- V47 and V50. -/
theorem test_jne : ([2, 1] : List Byte).map (fun f => (nextOf (step (((start 0x12 [0x56, 3]).setReg 3 0x0C).setFl f))).map
    (fun t => t.pc)) = [some 0x0C, some 0x14] := by decide
/-- V52. -/
theorem test_jne_taken_bad_register : (nextOf (step (start 0 [0x56, 9]))).map (fun t => (t.pc, t.status)) =
    some (0, .faulted .registerIndex 9) := by decide

/-- The result in the first operand and FL of one ALU step: `x[0] = u`, `x[1] = v`, registers 0 and 1. -/
def aluStep (op u v : Byte) : Option (Byte × Byte × Byte) :=
  (nextOf (step (((start 0 [op, 0, 1]).setReg 0 u).setReg 1 v))).map fun t => (t.getReg 0, t.fl, t.pc)

/-- V62. -/
theorem test_add_wraps : aluStep 0xA0 0xC8 0x64 = some (0x2C, 0, 3) := by decide
/-- V64: ADD R7,R0 moves the stack pointer. -/
theorem test_add_sp : (nextOf (step ((start 0 [0xA0, 7, 0]).setReg 0 2))).map (fun t => t.sp) = some 0xF6 := by decide
/-- V67. -/
theorem test_sub_wraps : aluStep 0xA1 0x64 0xC8 = some (0x9C, 0, 3) := by decide
/-- V71. -/
theorem test_mul_low_byte : aluStep 0xA2 0xFF 0xFF = some (0x01, 0, 3) := by decide
/-- V76: unsigned. -/
theorem test_div_unsigned : aluStep 0xA3 0xFF 0x02 = some (0x7F, 0, 3) := by decide
/-- V80: the divisor is zero; the dividend and pc are kept. -/
theorem test_div_by_zero : (nextOf (step ((start 0 [0xA3, 0, 1]).setReg 0 7))).map
    (fun t => (t.getReg 0, t.pc, t.status)) = some (7, 0, .faulted .divideByZero 0) := by decide
/-- V85: unsigned, greater. -/
theorem test_cmp_greater : aluStep 0xA7 0xC8 0x64 = some (0xC8, 2, 3) := by decide
/-- V84: the old flag is overwritten. -/
theorem test_cmp_overwrites : (nextOf (step ((start 0 [0xA7, 0, 1]).setFl 4))).map (fun t => t.fl) = some 1 := by decide
/-- V90: `op1` is checked first. -/
theorem test_index_fault_first_operand : (nextOf (step (start 0 [0xA0, 8, 9]))).map (fun t => t.status) =
    some (.faulted .registerIndex 8) := by decide
/-- V82: the index fault comes before the zero test. -/
theorem test_index_fault_before_zero_test : (nextOf (step (start 0 [0xA3, 9, 1]))).map (fun t => t.status) =
    some (.faulted .registerIndex 9) := by decide
/-- V104: operands are not examined. -/
theorem test_alu_decode_fault : (nextOf (step (start 0 [0xA4, 9, 9]))).map (fun t => (t.status, t.pc)) =
    some (.faulted .aluDecode 0xA4, 0) := by decide
/-- V101: the state is identical. -/
theorem test_non_alu_hang : nextOf (step (start 3 [0xFF])) = some (start 3 [0xFF]) := by decide

/-! ## Interfaces -/

/-- V1, as the first instruction after reset. -/
theorem test_first_instruction_after_reset : (nextOf (step (State.reset.withFetchWord 24 0x080082))).map
    (fun t => (t.getReg 0, t.pc)) = some (8, 3) := by decide

/-- R37: image first, zeros after it, SP preset. -/
theorem test_reset_image : (nextOf (applyReset [0x82, 0, 8] (start 9 [1]))).map
    (fun t => (t.readMem 0, t.readMem 1, t.readMem 2, t.readMem 3, t.pc, t.sp)) = some (0x82, 0, 8, 0, 0, 0xF4) := by decide
/-- R150, R154: the codes of the status output. -/
theorem test_status_codes : [Status.running, .halted, .faulted .divideByZero 6, .faulted .aluDecode 0xA4,
    .faulted .registerIndex 8].map Status.code = [0, 0, 1, 2, 3] := by decide
/-- V8 and V9: the host's rendering. -/
theorem test_decimal_digits : ([0, 17, 255] : List Byte).map decimalDigits = [[0], [1, 7], [2, 5, 5]] := by decide
/-- The canonical form: storing a zero removes the entry. -/
theorem test_write_zero_removes : ((State.reset.writeMem 5 7).writeMem 5 0).mem = [] := by decide

/-! ## Witnesses: the hypotheses of each statement can be met -/

theorem witness_DecodeOfEncodeIsTheInstruction : (Instr.unrecognisedAlu 0xA4).wf = true ∧
    (Instr.unrecognisedAlu 0xBF).wf = true ∧ (Instr.unrecognisedNonAlu 0x9F).wf = true ∧
    (Instr.unrecognisedNonAlu 0xC0).wf = true ∧ (Instr.ldi 255 255).wf = true := by decide

theorem witness_StepRunsTheFetchedInstruction : ∃ s : State, s.status = .running ∧
    decode [s.readMem s.pc, s.readMem (s.pc + 1), s.readMem (s.pc + 2)] = .ok (.ldi 3 0x82) ∧
    (Instr.ldi 3 0x82).wf = true := ⟨start 0xFE [0x82, 3, 0x82], rfl, rfl, rfl⟩

theorem witness_RunningEngineAlwaysSteps : State.reset.status = .running := rfl

theorem witness_StoppedEngineTakesNoStep : (State.reset.setStatus .halted).status = .halted ∧
    (State.reset.setStatus (.faulted .aluDecode 0xA4)).status = .faulted .aluDecode 0xA4 := ⟨rfl, rfl⟩

/-- A halting step, a faulting one for each of the three conditions, and a running one. -/
theorem witness_StatusChangesOnlyByHaltOrFault :
    (∃ t, step (start 0 [1]) = .next t ∧ t.status = .halted) ∧
    (∃ t, step (start 0 [0xA4]) = .next t ∧ t.status = .faulted .aluDecode 0xA4) ∧
    (∃ t, step (start 0 [0xA0, 7, 8]) = .next t ∧ t.status = .faulted .registerIndex 8) ∧
    (∃ t, step (start 0 [0xA3, 7, 0]) = .next t ∧ t.status = .faulted .divideByZero 0) ∧
    (∃ t, step (start 0 [0x47, 0]) = .next t ∧ t.status = .running) :=
  ⟨⟨_, rfl, rfl⟩, ⟨_, rfl, rfl⟩, ⟨_, rfl, rfl⟩, ⟨_, rfl, rfl⟩, _, rfl, rfl⟩

theorem witness_EveryStepKeepsTheInvariant : (start 0 [0x45, 7]).Inv ∧ ∃ t, step (start 0 [0x45, 7]) = .next t :=
  ⟨by decide, _, rfl⟩

theorem witness_ResetMeetsTheInvariant : ∃ t, applyReset [0x01] (start 0 [0xA4]) = .next t := ⟨_, rfl⟩

theorem witness_FlagsWrittenByCmpReadByJumps :
    ((∀ a b, Instr.add 7 0 ≠ .cmp a b) ∧ ∃ t, exec (.add 7 0) State.reset = .next t) ∧
    ((7 : Byte).toNat = (7 : RegIdx).val ∧ (0 : Byte).toNat = (0 : RegIdx).val) ∧
    ((∀ a b, Instr.jeq 0 ≠ .cmp a b) ∧ ((State.reset.setFl 1).setFl 3).flagE = (State.reset.setFl 1).flagE ∧
      ∃ t, exec (.jeq 0) (State.reset.setFl 1) = .next t) :=
  ⟨⟨nofun, _, rfl⟩, ⟨rfl, rfl⟩, nofun, rfl, _, rfl⟩

theorem witness_FlagsAreOneHotAfterACompare :
    ((State.reset.setFl 4).fl.toNat ∈ [0, 1, 2, 4] ∧ ∃ t, step ((start 0 [0x47, 0]).setFl 4) = .next t) ∧
    (start 0 [0xA7, 7, 0]).fetchInstr = .cmp 7 0 ∧
      ∃ t, step (start 0 [0xA7, 7, 0]) = .next t ∧ t.status = .running :=
  ⟨⟨by decide, _, rfl⟩, rfl, _, rfl, rfl⟩

theorem witness_FaultsChangeOnlyTheStatus : ∃ t, step (start 0 [0x45, 8]) = .next t ∧
    t.status = .faulted .registerIndex 8 := ⟨_, rfl, rfl⟩

theorem witness_DivideByZeroExactlyOnZeroDivisor : (start 0 []).status = .running ∧
    ∃ t, exec (.div 7 0) (start 0 []) = .next t ∧ t.status = .faulted .divideByZero 0 := ⟨rfl, _, rfl, rfl⟩

theorem witness_DecodeAndIndexFaultsInPriorityOrder : (start 0 []).status = .running ∧
    (∃ t, exec (.unrecognisedAlu 0xBF) (start 0 []) = .next t ∧ t.status = .faulted .aluDecode 0xBF) ∧
    ∃ t, exec (.div 7 8) (start 0 []) = .next t ∧ t.status = .faulted .registerIndex 8 :=
  ⟨rfl, ⟨_, rfl, rfl⟩, _, rfl, rfl⟩

theorem witness_OutputIsAppendOnlyAndUnreadable : ∃ t, exec (.prn 7) State.reset = .next t ∧ t.out = [0xF4] :=
  ⟨_, rfl, rfl⟩

theorem witness_OnlyPushAndCallWriteMemory : ∃ t, step (start 0 [0x45, 7]) = .next t ∧
    t.readMem 0xF3 ≠ (start 0 [0x45, 7]).readMem 0xF3 := ⟨_, rfl, by decide⟩

theorem witness_OnlyTheListedRegistersChange : mayWriteReg 2 (.pop 3) = false ∧
    ∃ t, exec (.pop 3) State.reset = .next t := ⟨rfl, _, rfl⟩

/-- The image of one HLT keeps the contract, and its halted state is reached. -/
theorem witness_ContractRulesOutFaults : SafeImage [0x01] ∧
    ∃ t, Reaches (State.resetWith [0x01]) t ∧ t.status = .halted := by
  have hs : step (State.resetWith [0x01]) = .next ((State.resetWith [0x01]).setStatus .halted) := rfl
  refine ⟨fun t ht hr => ?_, _, .step .refl hs, rfl⟩
  have key : t = State.resetWith [0x01] ∨ t.status = .halted := by
    clear hr
    induction ht with
    | refl => exact .inl rfl
    | step _ h ih =>
      rcases ih with rfl | ih
      · rw [hs] at h; cases h; exact .inr rfl
      · have := running_of_step h
        rw [ih] at this; cases this
  rcases key with rfl | h
  · refine ⟨fun b hb => (by cases hb), rfl, rfl, ?_⟩
    rintro ⟨a, b, j, h, _⟩
    cases h
  · rw [h] at hr; cases hr

/-- Both ends of a step: a DIV by register 7, which holds 0xF4, and HLT. -/
theorem witness_ContractStepCannotFault :
    ((start 0 [0xA3, 0, 7]).status = .running ∧ KeepsContract (start 0 [0xA3, 0, 7])) ∧
    (start 0 [0x01]).status = .running ∧ KeepsContract (start 0 [0x01]) ∧ (start 0 [0x01]).fetchInstr = .hlt := by
  refine ⟨⟨rfl, by decide, rfl, rfl, ?_⟩, rfl, ⟨by decide, rfl, rfl, ?_⟩, rfl⟩
  · rintro ⟨a, b, j, h, hb, h0⟩
    cases h
    obtain rfl : j = 7 := Fin.ext hb.symm
    exact absurd h0 (by decide)
  · rintro ⟨a, b, j, h, -⟩
    cases h

/-- The push lands on the next opcode, and on its own operand. -/
theorem witness_StoreIsSeenByTheNextFetch :
    (∃ s : State, s.status = .running ∧ s.fetchInstr = .push 0 ∧ s.pushAddress = s.pc + 2) ∧
    ∃ s : State, s.status = .running ∧ s.fetchInstr = .push 7 ∧ s.pushAddress = s.pc + 1 :=
  ⟨⟨(start 0xFE [0x45, 0]).setSp 1, rfl, rfl, by decide⟩, (start 0xFE [0x45, 7]).setSp 0, rfl, rfl, by decide⟩

theorem witness_ResetLoadsTheImage : (List.replicate 256 (0x01 : Byte)).length ≤ 256 ∧
    256 < (List.replicate 257 (0x01 : Byte)).length ∧
    (255 : Byte).toNat < (List.replicate 256 (0x01 : Byte)).length ∧ ([] : List Byte).length ≤ (0 : Byte).toNat := by
  simp only [List.length_replicate]; decide

theorem witness_StoredTableWordRunsNext : decodeTableWord 24 0x2A0182 = some (.ldi 1 0x2A) := by decide

/-- A byte above 7, the least and the greatest; and the bytes of the first and the last register. -/
theorem witness_register_bytes : 7 < (8 : Byte).toNat ∧ 7 < (255 : Byte).toNat ∧
    (0 : Byte).toNat = (0 : RegIdx).val ∧ (7 : Byte).toNat = (7 : RegIdx).val := by decide

theorem witness_LdiLoadsTheImmediate : ∃ t, exec (.ldi 7 0xFF) (start 0xFD []) = .next t ∧ t.sp = 0xFF := ⟨_, rfl, rfl⟩
theorem witness_PrnEmitsTheRegister : ∃ t, exec (.prn 0) (start 0xFF []) = .next t ∧ t.out = [0] := ⟨_, rfl, rfl⟩
theorem witness_PushStoresBelowTheStack : ∃ t, exec (.push 7) (State.reset.setSp 0) = .next t ∧ t.sp = 0xFF :=
  ⟨_, rfl, rfl⟩
/-- Both clauses: a register other than 7, and register 7. -/
theorem witness_PopLoadsFromTheStack : (0 : RegIdx) ≠ 7 ∧ (∃ t, exec (.pop 0) (State.reset.setSp 0xFF) = .next t ∧ t.sp = 0) ∧
    ∃ t, exec (.pop 7) State.reset = .next t ∧ t.sp = 1 := ⟨by decide, ⟨_, rfl, rfl⟩, _, rfl, rfl⟩
theorem witness_PushThenPopRestores : ∃ t u, exec (.push 7) (State.reset.setSp 0) = .next t ∧ exec (.pop 7) t = .next u ∧
    u.sp = 0 := ⟨_, _, rfl, rfl, rfl⟩
theorem witness_HltHaltsAndFreezes : ∃ t, exec .hlt State.reset = .next t ∧ t.status = .halted := ⟨_, rfl, rfl⟩
theorem witness_CallPushesTheReturnAddress : ∃ t, exec (.call 7) (start 0xFF []) = .next t ∧ t.readMem 0xF3 = 1 :=
  ⟨_, rfl, rfl⟩
theorem witness_RetPopsTheProgramCounter : ∃ t, exec .ret (State.reset.setSp 0xFF) = .next t ∧ t.sp = 0 := ⟨_, rfl, rfl⟩
theorem witness_CallThenRetReturns : ∃ t u, exec (.call 7) (start 0xFE []) = .next t ∧ exec .ret t = .next u ∧ u.pc = 0 :=
  ⟨_, _, rfl, rfl, rfl⟩
theorem witness_JmpSetsThePcFromTheRegister : ∃ t, exec (.jmp 7) State.reset = .next t ∧ t.pc = 0xF4 := ⟨_, rfl, rfl⟩
/-- The four cases: JEQ and JNE, bit E set and clear; taken and not. -/
theorem witness_ConditionalJumpsFollowBitE : (State.reset.setFl 1).fl.getLsbD 0 = true ∧
    State.reset.fl.getLsbD 0 = false ∧
    (nextOf (exec (.jeq 7) (State.reset.setFl 1))).map (fun t => t.pc) = some 0xF4 ∧
    (nextOf (exec (.jne 7) State.reset)).map (fun t => t.pc) = some 0xF4 ∧
    (nextOf (exec (.jeq 8) State.reset)).map (fun t => t.pc) = some 2 ∧
    (nextOf (exec (.jne 8) (State.reset.setFl 1))).map (fun t => t.pc) = some 2 := by decide

/-- Two register bytes: the first above 7; the second above 7; both of registers, the first and the last. -/
theorem witness_two_register_bytes : 7 < (8 : Byte).toNat ∧ ((7 : Byte).toNat ≤ 7 ∧ 7 < (8 : Byte).toNat) ∧
    ((7 : Byte).toNat = (7 : RegIdx).val ∧ (0 : Byte).toNat = (0 : RegIdx).val) := by decide

theorem witness_AddWrapsAtEightBits : ∃ t, exec (.add 7 7) (start 0xFD []) = .next t ∧ t.sp = 0xE8 := ⟨_, rfl, rfl⟩
theorem witness_SubWrapsAtEightBits : ∃ t, exec (.sub 0 7) State.reset = .next t ∧ t.getReg 0 = 0x0C := ⟨_, rfl, rfl⟩
theorem witness_MulKeepsTheLowByte : ∃ t, exec (.mul 7 7) State.reset = .next t ∧ t.sp = 0x90 := ⟨_, rfl, rfl⟩
/-- A divisor register that holds 0, and one that does not. -/
theorem witness_DivGivesTheFloorQuotient : (State.reset.getReg 0).toNat = 0 ∧ (State.reset.getReg 7).toNat ≠ 0 ∧
    ∃ t, exec (.div 7 7) State.reset = .next t ∧ t.sp = 1 := ⟨rfl, by decide, _, rfl, rfl⟩
/-- The three outcomes: equal, greater, less. -/
theorem witness_CmpSetsExactlyOneFlag :
    (nextOf (exec (.cmp 0 1) State.reset)).map (fun t => t.fl) = some 1 ∧
    (nextOf (exec (.cmp 7 0) State.reset)).map (fun t => t.fl) = some 2 ∧
    (nextOf (exec (.cmp 0 7) State.reset)).map (fun t => t.fl) = some 4 := by decide
/-- A register that holds 0, and one that does not. -/
theorem witness_SameRegisterAsBothOperands : (0 : Byte).toNat = (0 : RegIdx).val ∧ (State.reset.getReg 0).toNat = 0 ∧
    (7 : Byte).toNat = (7 : RegIdx).val ∧ (State.reset.getReg 7).toNat ≠ 0 := by decide
theorem witness_UnrecognisedAluOpcodeRaises :
    (0xA4 : Byte).toNat ∈ [0xA4, 0xA5, 0xA6] ++ List.range' 0xA8 8 ++ List.range' 0xB0 16 ∧
    (0xBF : Byte).toNat ∈ [0xA4, 0xA5, 0xA6] ++ List.range' 0xA8 8 ++ List.range' 0xB0 16 := by decide
theorem witness_UnrecognisedNonAluOpcodeHangs : State.reset.status = .running ∧
    State.reset.fetchInstr = .unrecognisedNonAlu 0 := ⟨rfl, rfl⟩

end Sys2Proof.Tests
end

section
/-! The flags byte (10_state.md R29): which instructions write it, and how `exec` answers on a state whose FL is
replaced. -/

namespace Sys2Proof.Machine

/-- A register check does not look at FL: if what follows it answers alike on the state with another FL, so does
the whole. -/
theorem withReg_setFl {b f : Byte} {s t : State} {k k' : RegIdx → Result}
    (hk : ∀ i, k i = .next t → k' i = .next (t.setFl f)) (h : withReg b s k = .next t) :
    withReg b (s.setFl f) k' = .next (t.setFl f) :=
  withReg_transport (fun u => u.setFl f) (fun _ => rfl) hk h

theorem withRegs_setFl {a b f : Byte} {s t : State} {k k' : RegIdx → RegIdx → Result}
    (hk : ∀ i j, k i j = .next t → k' i j = .next (t.setFl f)) (h : withRegs a b s k = .next t) :
    withRegs a b (s.setFl f) k' = .next (t.setFl f) :=
  withReg_setFl (fun i h => withReg_setFl (hk i) h) h

/-- Once its condition is known, a conditional jump does not look at FL (R115, R116). -/
theorem branchIf_setFl {c : Bool} {r f : Byte} {s t : State} (h : branchIf c r s = .next t) :
    branchIf c r (s.setFl f) = .next (t.setFl f) := by
  cases c with
  | true => exact withReg_setFl (fun _ h => next_inj h ▸ rfl) h
  | false => exact next_inj h ▸ rfl

/-- Only CMP writes FL. -/
theorem exec_fl_of_ne_cmp {i : Instr} {s t : State} (hcmp : ∀ a b, i ≠ .cmp a b) (h : exec i s = .next t) :
    t.fl = s.fl := by
  cases exec_effect h
  case cmp => exact absurd rfl (hcmp _ _)
  all_goals rfl

/-- CMP with both indices valid, as one equation (R127). -/
theorem exec_cmp_eq {a b : Byte} {m n : RegIdx} (s : State) (ha : a.toNat = m.val) (hb : b.toNat = n.val) :
    exec (.cmp a b) s = .next ((s.setFl (compareFlags (s.getReg m) (s.getReg n))).advance 3) :=
  withRegs_names _ ha hb

/-- Every instruction but CMP carries FL along unread, the conditional jumps as far as bit E agrees. -/
theorem exec_setFl {i : Instr} {s t : State} {f : Byte} (hcmp : ∀ a b, i ≠ .cmp a b)
    (hE : (∀ r, i ≠ .jeq r ∧ i ≠ .jne r) ∨ (s.setFl f).flagE = s.flagE) (h : exec i s = .next t) :
    exec i (s.setFl f) = .next (t.setFl f) := by
  cases i
  case cmp a b => exact absurd rfl (hcmp a b)
  case jeq r =>
    have hE := hE.resolve_left fun hne => (hne r).1 rfl
    rw [exec, execJeq, hE]
    exact branchIf_setFl h
  case jne r =>
    have hE := hE.resolve_left fun hne => (hne r).2 rfl
    rw [exec, execJne, hE]
    exact branchIf_setFl h
  case ldi | prn | push | pop | call | jmp => exact withReg_setFl (fun _ h => next_inj h ▸ rfl) h
  case add | sub | mul => exact withRegs_setFl (fun _ _ h => next_inj h ▸ rfl) h
  case div a b =>
    refine withRegs_setFl (fun m n h => ?_) h
    rw [State.setFl_getReg]
    split at h
    · next h0 => rw [if_pos h0, next_inj h]; rfl
    · next h0 => rw [if_neg h0, next_inj h]; rfl
  case hlt | ret | unrecognisedAlu | unrecognisedNonAlu => exact next_inj h ▸ rfl

/-- Settles O11: the frame of FL and its non-interference, by cases on the instruction; CMP by its equation. -/
theorem flagsWrittenByCmpReadByJumps : Obligations.FlagsWrittenByCmpReadByJumps := by
  refine ⟨fun i s t => exec_fl_of_ne_cmp, fun a b m n s f ha hb => ⟨⟨_, exec_cmp_eq s ha hb⟩, ?_⟩,
    fun i s t f => exec_setFl⟩
  rw [exec_cmp_eq _ ha hb, exec_cmp_eq _ ha hb]
  rfl

end Sys2Proof.Machine
end

section
/-! The ALU-class opcodes that name no operation (30_encoding.md R69, 40_cycle.md R88): the model's check against the
rule's list, and what the decoder reads. -/

namespace Sys2Proof

/-- R69's list of opcode values is the model's check `undefinedAluOpcode`. -/
theorem undefinedAluOpcode_iff_mem (ir : Byte) : undefinedAluOpcode ir = true ↔
    ir.toNat ∈ [0xA4, 0xA5, 0xA6] ++ List.range' 0xA8 8 ++ List.range' 0xB0 16 := by
  revert ir; decide

/-- The operand bytes play no part in the reading of such an opcode. -/
theorem decode_undefinedAlu {ir : Byte} (x y : Byte) (h : undefinedAluOpcode ir = true) :
    decode [ir, x, y] = .ok (.unrecognisedAlu ir) := by
  rw [decode_fetched, decodeFetched_undefinedAlu ir x y h]

namespace Machine

/-- Settles O40: the listed opcodes decode to the ALU class that names no operation, and executing it is `raise`,
a precise fault. -/
theorem unrecognisedAluOpcodeRaises : Obligations.UnrecognisedAluOpcodeRaises := by
  refine ⟨fun ir x y h => ?decodes, fun ir s => ?raises⟩
  case decodes => exact decode_undefinedAlu x y ((undefinedAluOpcode_iff_mem ir).mpr h)
  case raises => exact raise_raisesFrom .aluDecode ir s

end Machine
end Sys2Proof
end

section
/-! LDI (41_data_movement.md R100): what its bytes decode to, and the step as one equation. -/

namespace Sys2Proof

/-- Opcode `82` with any operand bytes is LDI (30_encoding.md R67). -/
theorem decode_ldi (r v : Byte) : decode [0x82, r, v] = .ok (.ldi r v) := decode_fetched 0x82 r v

namespace Machine

/-- LDI with a valid index, as one equation (R100). -/
theorem exec_ldi_eq {r : Byte} {i : RegIdx} (v : Byte) (s : State) (h : r.toNat = i.val) :
    exec (.ldi r v) s = .next ((s.setReg i v).advance 3) :=
  withReg_names _ h

/-- Settles O23: the bytes by the decoder, a bad index by the checked operand, and a valid one by LDI's equation,
each field read off the register write and the advance. -/
theorem ldiLoadsTheImmediate : Obligations.LdiLoadsTheImmediate := by
  refine ⟨fun r v => ⟨decode_ldi r v, rfl⟩, fun r v s => withReg_raisesFrom s _,
    fun r v i s h => ⟨_, exec_ldi_eq v s h, ?loaded, ?pc, ?regs, ?mem, rfl, rfl, rfl⟩⟩
  case loaded => exact State.getReg_setReg_self s i v
  case pc => exact State.advance_pc_toNat (s.setReg i v) 3
  case regs => exact State.setReg_regsKept s i v
  case mem => exact fun _ => rfl

end Machine
end Sys2Proof
end

section
/-! HLT and JMP (42_control_flow.md R111, R114): what their bytes decode to, and each step as one equation. -/

namespace Sys2Proof

/-- Opcode `01` with any following bytes is HLT (30_encoding.md R67). -/
theorem decode_hlt (x y : Byte) : decode [0x01, x, y] = .ok .hlt := decode_fetched 0x01 x y

/-- Opcode `54` is JMP through its first operand byte, whatever follows (30_encoding.md R67). -/
theorem decode_jmp (r x : Byte) : decode [0x54, r, x] = .ok (.jmp r) := decode_fetched 0x54 r x

namespace Machine

/-- HLT latches the status and does nothing else (R111). -/
theorem exec_hlt_eq (s : State) : exec .hlt s = .next (s.setStatus .halted) := rfl

/-- JMP with a valid index, as one equation (R114). -/
theorem exec_jmp_eq {r : Byte} {i : RegIdx} (s : State) (h : r.toNat = i.val) :
    exec (.jmp r) s = .next (s.setPc (s.getReg i)) :=
  withReg_names _ h

/-- A halted engine has no next state (40_cycle.md R80). -/
theorem step_ne_next_of_halted {s : State} (h : s.status = .halted) (t : State) : step s ≠ .next t := by
  intro hstep
  have hrunning := running_of_step hstep
  rw [h] at hrunning
  cases hrunning

/-- Settles O28: the bytes by the decoder, the state by HLT's equation, which changes the status alone, and the
freeze because a halted engine has no next state. -/
theorem hltHaltsAndFreezes : Obligations.HltHaltsAndFreezes := by
  refine ⟨decode_hlt, rfl, fun s => ⟨_, exec_hlt_eq s, rfl, rfl, ?regs, ?mem, rfl, rfl, ?frozen⟩⟩
  case regs => exact fun j _ => State.setStatus_getReg s j .halted
  case mem => exact fun a => State.setStatus_readMem s a .halted
  case frozen => exact step_ne_next_of_halted (State.setStatus_status s .halted)

/-- Settles O32: the bytes by the decoder, a bad index by the checked operand, and a valid one by JMP's equation,
which changes pc alone. -/
theorem jmpSetsThePcFromTheRegister : Obligations.JmpSetsThePcFromTheRegister := by
  refine ⟨fun r x => ⟨decode_jmp r x, rfl⟩, fun r s => withReg_raisesFrom s _,
    fun r i s h => ⟨_, exec_jmp_eq s h, rfl, ?regs, ?mem, rfl, rfl, rfl⟩⟩
  case regs => exact fun j _ => State.setPc_getReg s j (s.getReg i)
  case mem => exact fun a => State.setPc_readMem s a (s.getReg i)

end Machine
end Sys2Proof
end

section
/-! ADD, SUB, MUL (43_alu.md R123 to R125): what their bytes decode to, and once for the shape they share (R120) the
index faults and the effect. -/

namespace Sys2Proof

/-- Opcode `A0` with any operand bytes is ADD (30_encoding.md R68). -/
theorem decode_add (a b : Byte) : decode [0xA0, a, b] = .ok (.add a b) := decode_fetched 0xA0 a b

/-- Opcode `A1` with any operand bytes is SUB (30_encoding.md R68). -/
theorem decode_sub (a b : Byte) : decode [0xA1, a, b] = .ok (.sub a b) := decode_fetched 0xA1 a b

/-- Opcode `A2` with any operand bytes is MUL (30_encoding.md R68). -/
theorem decode_mul (a b : Byte) : decode [0xA2, a, b] = .ok (.mul a b) := decode_fetched 0xA2 a b

namespace Machine

/-- `sub8` as the difference of integers (00_scope.md R15). -/
theorem sub8_toNat_int (a b : Byte) : ((sub8 a b).toNat : Int) = (a.toNat - b.toNat : Int) % 256 := by
  rw [sub8, BitVec.toNat_ofInt]
  exact Int.toNat_of_nonneg (Int.emod_nonneg _ (by decide))

/-- A first operand above 7 is a precise fault, whatever the second is (60_exceptions.md R155). -/
theorem withRegs_raisesFrom_left {a b : Byte} (s : State) (k : RegIdx → RegIdx → Result) (ha : 7 < a.toNat) :
    RaisesFrom (withRegs a b s k) .registerIndex a s :=
  withReg_raisesFrom s _ ha

/-- A second operand above 7 is a precise fault once the first names a register. -/
theorem withRegs_raisesFrom_right {a b : Byte} (s : State) (k : RegIdx → RegIdx → Result) (ha : a.toNat ≤ 7)
    (hb : 7 < b.toNat) : RaisesFrom (withRegs a b s k) .registerIndex b s :=
  withRegs_raises_right (s := s) k ha hb ▸ raise_raisesFrom _ _ _

/-- An arithmetic operation with both indices valid, as one equation (R120). -/
theorem arith_eq (f : Byte → Byte → Byte) {a b : Byte} {m n : RegIdx} (s : State) (ha : a.toNat = m.val)
    (hb : b.toNat = n.val) :
    arith f a b s = .next ((s.setReg m (f (s.getReg m) (s.getReg n))).advance 3) :=
  withRegs_names _ ha hb

/-- Field by field: the result goes to the first register, pc past the three bytes, and nothing else changes. -/
theorem arith_effect (f : Byte → Byte → Byte) {a b : Byte} {m n : RegIdx} (s : State) (ha : a.toNat = m.val)
    (hb : b.toNat = n.val) :
    ∃ t, arith f a b s = .next t ∧ t.getReg m = f (s.getReg m) (s.getReg n) ∧
      t.pc.toNat = (s.pc.toNat + 3) % 256 ∧
      RegsKeptExcept [m] s t ∧ MemKept s t ∧ t.fl = s.fl ∧ t.status = s.status ∧ t.out = s.out := by
  refine ⟨_, arith_eq f s ha hb, ?result, ?pc, ?regs, ?mem, rfl, rfl, rfl⟩
  case result => exact State.getReg_setReg_self s m _
  case pc => exact State.advance_pc_toNat (s.setReg m _) 3
  case regs => exact State.setReg_regsKept s m _
  case mem => exact fun _ => rfl

/-- Settles O34: the bytes by the decoder, a bad index by the checked operands, and two valid ones by the shared
effect, whose result is `add8` as a number. -/
theorem addWrapsAtEightBits : Obligations.AddWrapsAtEightBits := by
  refine ⟨fun a b => ⟨decode_add a b, rfl⟩, fun a b s => withRegs_raisesFrom_left s _,
    fun a b s => withRegs_raisesFrom_right s _, fun a b m n s ha hb => ?_⟩
  obtain ⟨t, hnext, hresult, hframe⟩ := arith_effect add8 s ha hb
  exact ⟨t, hnext, hresult ▸ add8_toNat _ _, hframe⟩

/-- Settles O35: as ADD, the result being `sub8` as a difference of integers. -/
theorem subWrapsAtEightBits : Obligations.SubWrapsAtEightBits := by
  refine ⟨fun a b => ⟨decode_sub a b, rfl⟩, fun a b s => withRegs_raisesFrom_left s _,
    fun a b s => withRegs_raisesFrom_right s _, fun a b m n s ha hb => ?_⟩
  obtain ⟨t, hnext, hresult, hframe⟩ := arith_effect sub8 s ha hb
  exact ⟨t, hnext, hresult ▸ sub8_toNat_int _ _, hframe⟩

/-- Settles O36: as ADD, the result being `mul8`, the low byte of the product. -/
theorem mulKeepsTheLowByte : Obligations.MulKeepsTheLowByte := by
  refine ⟨fun a b => ⟨decode_mul a b, rfl⟩, fun a b s => withRegs_raisesFrom_left s _,
    fun a b s => withRegs_raisesFrom_right s _, fun a b m n s ha hb => ?_⟩
  obtain ⟨t, hnext, hresult, hframe⟩ := arith_effect mul8 s ha hb
  exact ⟨t, hnext, hresult ▸ mul8_toNat _ _, hframe⟩

end Machine
end Sys2Proof
end

section
/-! The decoder and the encoder are inverse to one another (30_encoding.md sections 1 to 4), and the opcodes that name
no instruction are the listed ones (R69, R70). -/

namespace Sys2Proof

/-- With the operand bytes of its opcode present, a list is read as the engine reads its first three bytes. -/
theorem decode_cons {ir : Byte} {rest : List Byte} (h : operandCount ir ≤ rest.length) :
    decode (ir :: rest) = .ok (decodeFetched ir (rest.getD 0 0) (rest.getD 1 0)) := by
  rw [decode, if_neg (Nat.not_lt.mpr h)]

/-- No opcode has more than two operand bytes (R60). -/
theorem operandCount_le_two (ir : Byte) : operandCount ir ≤ 2 := by
  revert ir; decide

/-- Bytes after the two operand bytes play no part. -/
theorem decode_three_bytes (ir op1 op2 : Byte) (rest : List Byte) :
    decode (ir :: op1 :: op2 :: rest) = .ok (decodeFetched ir op1 op2) := by
  refine decode_cons ((operandCount_le_two ir).trans ?_)
  simp

/-- An opcode with at most one operand byte needs no byte after that. -/
theorem decode_two_bytes {ir : Byte} (h : operandCount ir ≤ 1) (op1 : Byte) (rest : List Byte) :
    decode (ir :: op1 :: rest) = .ok (decodeFetched ir op1 (rest.getD 0 0)) := by
  refine decode_cons (h.trans ?_)
  simp

/-- An opcode without operand bytes is read from itself alone. -/
theorem decode_one_byte {ir : Byte} (h : operandCount ir = 0) (rest : List Byte) :
    decode (ir :: rest) = .ok (decodeFetched ir (rest.getD 0 0) (rest.getD 1 0)) :=
  decode_cons (h ▸ Nat.zero_le _)

theorem operandCount_undefinedAlu {ir : Byte} (h : undefinedAluOpcode ir = true) : operandCount ir = 0 := by
  simp only [operandCount, decodeFetched_undefinedAlu ir 0 0 h, Instr.length?]

theorem operandCount_undefinedNonAlu {ir : Byte} (h : undefinedNonAluOpcode ir = true) : operandCount ir = 0 := by
  simp only [operandCount, decodeFetched_undefinedNonAlu ir 0 0 h, Instr.length?]

/-- Settles O1, by cases on the instruction, grouped by how many bytes it has (R60); the two classes by their lists. -/
theorem decodeOfEncodeIsTheInstruction : Obligations.DecodeOfEncodeIsTheInstruction := by
  intro i rest hwf
  cases i
  case ldi | add | sub | mul | div | cmp => exact decode_three_bytes _ _ _ rest
  case prn | push | pop | call | jmp | jeq | jne => exact decode_two_bytes (by decide) _ rest
  case hlt | ret => exact decode_one_byte (by decide) rest
  case unrecognisedAlu op =>
    exact (decode_one_byte (operandCount_undefinedAlu hwf) rest).trans
      (congrArg _ (decodeFetched_undefinedAlu _ _ _ hwf))
  case unrecognisedNonAlu op =>
    exact (decode_one_byte (operandCount_undefinedNonAlu hwf) rest).trans
      (congrArg _ (decodeFetched_undefinedNonAlu _ _ _ hwf))

/-- What the engine reads from three bytes is well formed, and its own bytes are the first of the three: the fifteen
defined opcodes one by one, the rest by their lists. -/
theorem decodeFetched_wf_and_bytes (ir op1 op2 : Byte) :
    (decodeFetched ir op1 op2).wf = true ∧ encode (decodeFetched ir op1 op2) <+: [ir, op1, op2] := by
  rcases opcode_cases ir with hdef | halu | hnon
  · simp only [List.mem_cons, List.not_mem_nil, or_false] at hdef
    rcases hdef with rfl | rfl | rfl | rfl | rfl | rfl | rfl | rfl | rfl | rfl | rfl | rfl | rfl | rfl | rfl <;>
      exact ⟨rfl, _, rfl⟩
  · rw [decodeFetched_undefinedAlu _ _ _ halu]
    exact ⟨halu, _, rfl⟩
  · rw [decodeFetched_undefinedNonAlu _ _ _ hnon]
    exact ⟨hnon, _, rfl⟩

theorem decodeFetched_wf (ir op1 op2 : Byte) : (decodeFetched ir op1 op2).wf = true :=
  (decodeFetched_wf_and_bytes ir op1 op2).1

/-- Settles O2: the instruction is the engine's reading of the three bytes. -/
theorem encodeOfDecodeIsTheBytes : Obligations.EncodeOfDecodeIsTheBytes := by
  intro ir op1 op2
  obtain ⟨hwf, rest, hbytes⟩ := decodeFetched_wf_and_bytes ir op1 op2
  exact ⟨_, rest, decode_fetched ir op1 op2, hwf, hbytes⟩

/-- R70's list of opcode values is the model's check `undefinedNonAluOpcode`. -/
theorem undefinedNonAluOpcode_iff_mem (ir : Byte) : undefinedNonAluOpcode ir = true ↔
    ir.toNat ∈ (List.range' 0 0xA0 ++ List.range' 0xC0 0x40).filter
      (· ∉ [0x01, 0x11, 0x45, 0x46, 0x47, 0x50, 0x54, 0x55, 0x56, 0x82]) := by
  rw [List.mem_filter, List.mem_append, List.mem_range'_1, List.mem_range'_1]
  revert ir; decide

theorem wf_of_decode {ir op1 op2 : Byte} {i : Instr} (h : decode [ir, op1, op2] = .ok i) : i.wf = true := by
  rw [decode_fetched] at h
  exact Except.ok.inj h ▸ decodeFetched_wf ir op1 op2

theorem decode_undefinedNonAlu {ir : Byte} (x y : Byte) (h : undefinedNonAluOpcode ir = true) :
    decode [ir, x, y] = .ok (.unrecognisedNonAlu ir) := by
  rw [decode_fetched, decodeFetched_undefinedNonAlu ir x y h]

/-- A byte is read as an opcode of the ALU class without an operation exactly when R69 lists it. -/
theorem decode_unrecognisedAlu_iff (ir op1 op2 : Byte) :
    decode [ir, op1, op2] = .ok (.unrecognisedAlu ir) ↔ undefinedAluOpcode ir = true :=
  ⟨fun h => wf_of_decode h, decode_undefinedAlu op1 op2⟩

/-- A byte is read as an opcode outside the ALU class without an instruction exactly when R70 lists it. -/
theorem decode_unrecognisedNonAlu_iff (ir op1 op2 : Byte) :
    decode [ir, op1, op2] = .ok (.unrecognisedNonAlu ir) ↔ undefinedNonAluOpcode ir = true :=
  ⟨fun h => wf_of_decode h, decode_undefinedNonAlu op1 op2⟩

/-- Settles O3: the lengths by counting, the lists through the model's checks. -/
theorem undefinedOpcodesAreTheListedOnes : Obligations.UndefinedOpcodesAreTheListedOnes := by
  refine ⟨rfl, rfl, fun ir op1 op2 => ⟨?alu, ?nonAlu⟩⟩
  case alu => exact (decode_unrecognisedAlu_iff ir op1 op2).trans (undefinedAluOpcode_iff_mem ir)
  case nonAlu => exact (decode_unrecognisedNonAlu_iff ir op1 op2).trans (undefinedNonAluOpcode_iff_mem ir)

/-- Settles O4: each word is closed, and the decoder computes. -/
theorem sampleTableWordsDecode : Obligations.SampleTableWordsDecode := by
  unfold Obligations.SampleTableWordsDecode
  decide

end Sys2Proof
end

section
/-! The engine's step (40_cycle.md R80, R89): what it runs, that it is always taken while Running, and when a run ends
(70_reset_and_hazards.md section 4). -/

namespace Sys2Proof.Machine

variable {b : Byte} {s t : State} {k : Nat}

/-- The three bytes from pc on, modulo 256, are read as the instruction the engine fetches (R81, R82). -/
theorem decode_at_pc (s : State) :
    decode [s.readMem s.pc, s.readMem (s.pc + 1), s.readMem (s.pc + 2)] = .ok s.fetchInstr := by
  rw [← add8_eq_add, ← add8_eq_add]
  exact decode_fetched _ _ _

/-- Settles O5: what the bytes at pc decode to is the fetched instruction, which is well formed. -/
theorem stepRunsTheFetchedInstruction : Obligations.StepRunsTheFetchedInstruction := by
  refine ⟨fun s i hrun hdec _ => ?_, fun s => ⟨_, decode_at_pc s, decodeFetched_wf _ _ _⟩⟩
  obtain rfl : s.fetchInstr = i := Except.ok.inj ((decode_at_pc s).symm.trans hdec)
  exact step_running hrun

theorem step_halted (h : s.status = .halted) : step s = .fault .engineHalted := by
  rw [step, h]

theorem step_faulted {kind : FaultKind} {info : Byte} (h : s.status = .faulted kind info) :
    step s = .fault (.engineFaulted kind info) := by
  rw [step, h]

/-- Settles O7: the two equations of `step` outside Running. -/
theorem stoppedEngineTakesNoStep : Obligations.StoppedEngineTakesNoStep :=
  ⟨fun _ => step_halted, fun _ _ _ => step_faulted⟩

/-! ## An instruction always has a next state -/

theorem withReg_next {c : RegIdx → Result} (h : ∀ i, ∃ t, c i = .next t) : ∃ t, withReg b s c = .next t := by
  rcases byte_cases b with hb | ⟨i, hi⟩
  · exact ⟨_, withReg_raises c hb⟩
  · rw [withReg_names c hi]; exact h i

theorem withRegs_next {a : Byte} {c : RegIdx → RegIdx → Result} (h : ∀ i j, ∃ t, c i j = .next t) :
    ∃ t, withRegs a b s c = .next t :=
  withReg_next fun i => withReg_next (h i)

theorem branchIf_next (c : Bool) (r : Byte) (s : State) : ∃ t, branchIf c r s = .next t := by
  cases c with
  | true => exact withReg_next fun _ => ⟨_, rfl⟩
  | false => exact ⟨_, rfl⟩

/-- Every meaning answers a next state, a fault of the hardware being one (R17). -/
theorem exec_next (i : Instr) (s : State) : ∃ t, exec i s = .next t := by
  cases i
  case ldi | prn | push | pop | call | jmp => exact withReg_next fun _ => ⟨_, rfl⟩
  case add | sub | mul | cmp => exact withRegs_next fun _ _ => ⟨_, rfl⟩
  case div =>
    refine withRegs_next fun m n => ?_
    split
    · exact ⟨_, rfl⟩
    · exact ⟨_, rfl⟩
  case jeq | jne => exact branchIf_next _ _ s
  case hlt | ret | unrecognisedAlu | unrecognisedNonAlu => exact ⟨_, rfl⟩

theorem step_next (h : s.status = .running) : ∃ t, step s = .next t := by
  rw [step_running h]; exact exec_next _ s

/-! ## Runs -/

/-- A longer run begins with a step. -/
theorem run_succ_eq_next (h : Host.Core.run core (k + 1) s = .next t) :
    ∃ u, step s = .next u ∧ Host.Core.run core k u = .next t := by
  cases hs : step s with
  | next u => exact ⟨u, rfl, (run_succ_of_next k hs).symm.trans h⟩
  | fault r => cases (run_succ_of_fault k hs).symm.trans h
  | refused r => cases (run_succ_of_refused k hs).symm.trans h

/-- A longer run ends with a step. -/
theorem step_of_run_succ : ∀ {k : Nat} {s t u : State}, Host.Core.run core k s = .next t →
    Host.Core.run core (k + 1) s = .next u → step t = .next u := by
  intro k
  induction k with
  | zero =>
    intro s t u ht hu
    obtain ⟨v, hstep, hv⟩ := run_succ_eq_next hu
    cases ht; cases hv
    exact hstep
  | succ k ih =>
    intro s t u ht hu
    obtain ⟨v, hstep, hv⟩ := run_succ_eq_next ht
    exact ih hv ((run_succ_of_next _ hstep).symm.trans hu)

/-- A run that no longer answers a next state has passed a stopped one. -/
theorem run_reaches_stop : ∀ {k : Nat} {s : State}, (∀ t, Host.Core.run core k s ≠ .next t) →
    ∃ (j : Nat) (t : State), Host.Core.run core j s = .next t ∧ t.status ≠ .running := by
  intro k
  induction k with
  | zero => intro s h; exact absurd rfl (h s)
  | succ k ih =>
    intro s h
    by_cases hrun : s.status = .running
    · obtain ⟨u, hu⟩ := step_next hrun
      obtain ⟨j, t, ht, hstop⟩ := ih fun t ht => h t ((run_succ_of_next k hu).trans ht)
      exact ⟨j + 1, t, (run_succ_of_next j hu).trans ht, hstop⟩
    · exact ⟨0, s, rfl, hrun⟩

theorem status_ne_running_iff {q : Status} : q ≠ .running ↔ q = .halted ∨ ∃ kind info, q = .faulted kind info := by
  cases q <;> simp

/-- Settles O6: a Running engine steps because every meaning answers a next state; a run ends at the first state that
is not Running, and from such a state there is no step. -/
theorem runningEngineAlwaysSteps : Obligations.RunningEngineAlwaysSteps := by
  refine ⟨fun s => step_next, fun s => ⟨?ends, ?stops⟩⟩
  case ends =>
    rintro ⟨k, hk⟩
    obtain ⟨j, t, ht, hstop⟩ := run_reaches_stop hk
    exact ⟨j, t, ht, status_ne_running_iff.mp hstop⟩
  case stops =>
    rintro ⟨k, t, ht, hstop⟩
    refine ⟨k + 1, fun u hu => ?_⟩
    exact status_ne_running_iff.mpr hstop (running_of_step (step_of_run_succ ht hu))

/-- Settles O41: the step is the identity, so every run stays where it is, by induction on its length. -/
theorem unrecognisedNonAluOpcodeHangs : Obligations.UnrecognisedNonAluOpcodeHangs := by
  refine ⟨fun ir s => rfl, fun s ir hrun hfetch => ?_⟩
  have hstep : step s = .next s := by rw [step_running hrun, hfetch]; rfl
  refine ⟨⟨hrun, hstep⟩, fun k => ?_⟩
  induction k with
  | zero => rfl
  | succ k ih => exact (run_succ_of_next k hstep).trans ih

end Sys2Proof.Machine
end

section
/-! The status (10_state.md section 5) and the faults (60_exceptions.md section 1): an effect is a latched fault, with
its cause, exactly when the instruction meets a condition of R150. -/

namespace Sys2Proof.Machine

variable {s t : State} {i : Instr} {k k' : FaultKind} {info info' : Byte}

theorem byte_names_le {b : Byte} {j : RegIdx} (h : b.toNat = j.val) : b.toNat ≤ 7 := by
  have := j.isLt
  omega

/-- No condition of R150 is met when each of the three fails. -/
theorem not_meetsFault (hop : ∀ op, i ≠ .unrecognisedAlu op) (hreg : ∀ b ∈ accessedRegs s i, b.toNat ≤ 7)
    (hdiv : ¬ dividesByZero s i) : ¬ MeetsFault s i := by
  rintro (⟨op, h⟩ | ⟨b, hb, h7⟩ | ⟨-, h⟩)
  · exact hop op h
  · exact absurd (hreg b hb) (Nat.not_le.mpr h7)
  · exact hdiv h

theorem not_dividesByZero_of_ne_div (h : ∀ a b, i ≠ .div a b) : ¬ dividesByZero s i := by
  rintro ⟨a, b, j, hi, -⟩
  exact h a b hi

/-- What an effect does to the status: it latches a fault that has a cause; or no condition of R150 is met, and HLT
halts while every other instruction leaves the status alone. -/
theorem Effect.status_cases (h : Effect s i t) :
    (∃ k info, FaultCause s i k info ∧ t = s.setStatus (.faulted k info)) ∨
    (¬ MeetsFault s i ∧ (i = .hlt ∧ t = s.setStatus .halted ∨ i ≠ .hlt ∧ t.status = s.status)) := by
  cases h with
  | raised h => exact .inl ⟨_, _, h, rfl⟩
  | hlt => exact .inr ⟨not_meetsFault nofun nofun (not_dividesByZero_of_ne_div nofun), .inl ⟨rfl, rfl⟩⟩
  | ret | unrecognisedNonAlu =>
    exact .inr ⟨not_meetsFault nofun nofun (not_dividesByZero_of_ne_div nofun), .inr ⟨nofun, rfl⟩⟩
  | ldi _ h | prn h | push h | pop h | call h | jmp h =>
    refine .inr ⟨not_meetsFault nofun ?_ (not_dividesByZero_of_ne_div nofun), .inr ⟨nofun, rfl⟩⟩
    simpa [accessedRegs] using byte_names_le h
  | jeqTaken hE h | jneTaken hE h =>
    refine .inr ⟨not_meetsFault nofun ?_ (not_dividesByZero_of_ne_div nofun), .inr ⟨nofun, rfl⟩⟩
    simpa [accessedRegs, hE] using byte_names_le h
  | jeqNot hE | jneNot hE =>
    refine .inr ⟨not_meetsFault nofun ?_ (not_dividesByZero_of_ne_div nofun), .inr ⟨nofun, rfl⟩⟩
    simp [accessedRegs, hE]
  | add ha hb | sub ha hb | mul ha hb | cmp ha hb =>
    refine .inr ⟨not_meetsFault nofun ?_ (not_dividesByZero_of_ne_div nofun), .inr ⟨nofun, rfl⟩⟩
    simpa [accessedRegs] using ⟨byte_names_le ha, byte_names_le hb⟩
  | @div a b m n ha hb h0 =>
    refine .inr ⟨not_meetsFault nofun ?_ ?_, .inr ⟨nofun, rfl⟩⟩
    · simpa [accessedRegs] using ⟨byte_names_le ha, byte_names_le hb⟩
    · rintro ⟨a', b', n', hi, hb', h0'⟩
      cases hi
      obtain rfl : n = n' := Fin.ext (hb.symm.trans hb')
      exact h0 h0'

/-- The status after an instruction, when the engine was Running. -/
theorem Effect.status_of_running (hrun : s.status = .running) (h : Effect s i t) :
    (t.status = .halted ↔ i = .hlt) ∧
    ((∃ k info, t.status = .faulted k info) ↔ MeetsFault s i) ∧
    (t.status = .running ↔ i ≠ .hlt ∧ ¬ MeetsFault s i) := by
  rcases h.status_cases with ⟨k, info, hc, rfl⟩ | ⟨hno, ⟨rfl, rfl⟩ | ⟨hi, ht⟩⟩
  · have hne : i ≠ .hlt := by rintro rfl; cases hc with | registerIndex h => cases h
    simp [hne, hc.meetsFault]
  · simp [hno]
  · simp [ht, hrun, hi, hno]

/-- Settles O8: the status of the effect that the step's inversion gives. -/
theorem statusChangesOnlyByHaltOrFault : Obligations.StatusChangesOnlyByHaltOrFault := by
  intro s t h
  obtain ⟨hrun, i, rfl, heff⟩ := step_effect h
  exact ⟨hrun, heff.status_of_running hrun⟩

/-! ## Which fault -/

theorem find?_above_seven_eq_none {l : List Byte} (h : ∀ b ∈ l, b.toNat ≤ 7) :
    l.find? (fun b => decide (7 < b.toNat)) = none := by
  simpa [List.find?_eq_none] using h

/-- A DIV whose indices are valid has no cause for an index fault. -/
theorem FaultCause.not_registerIndex_div {a b : Byte} {m n : RegIdx} (ha : a.toNat = m.val) (hb : b.toNat = n.val) :
    ¬ FaultCause s (.div a b) .registerIndex info := by
  intro h
  cases h with
  | registerIndex h =>
    rw [find?_above_seven_eq_none (by simpa [accessedRegs] using ⟨byte_names_le ha, byte_names_le hb⟩)] at h
    cases h

/-- An instruction has one cause to raise at most (R155). -/
theorem FaultCause.unique (h : FaultCause s i k info) (h' : FaultCause s i k' info') : k = k' ∧ info = info' := by
  cases h with
  | aluDecode op =>
    cases h' with
    | aluDecode => exact ⟨rfl, rfl⟩
    | registerIndex h' => cases h'
  | registerIndex h =>
    cases h' with
    | aluDecode op => cases h
    | registerIndex h' => exact ⟨rfl, Option.some.inj (h.symm.trans h')⟩
    | divideByZero ha hb _ => exact absurd (.registerIndex h) (not_registerIndex_div ha hb)
  | divideByZero ha hb _ =>
    cases h' with
    | registerIndex h' => exact absurd (.registerIndex h') (not_registerIndex_div ha hb)
    | divideByZero => exact ⟨rfl, rfl⟩

/-- From Running, an effect that ends Faulted is a latched fault with its cause, and nothing else changed. -/
theorem Effect.of_faulted (hrun : s.status = .running) (h : Effect s i t) (ht : t.status = .faulted k info) :
    FaultCause s i k info ∧ t = s.setStatus (.faulted k info) := by
  rcases h.status_cases with ⟨k', info', hc, rfl⟩ | ⟨-, ⟨-, rfl⟩ | ⟨-, hst⟩⟩
  · cases ht; exact ⟨hc, rfl⟩
  · cases ht
  · cases hrun.symm.trans (hst.symm.trans ht)

/-- From Running, an instruction ends with the fault it has a cause for, and with no other. -/
theorem Effect.faulted_iff (hrun : s.status = .running) (h : Effect s i t) :
    t.status = .faulted k info ↔ FaultCause s i k info := by
  refine ⟨fun ht => (h.of_faulted hrun ht).1, fun hc => ?_⟩
  rcases h.status_cases with ⟨k', info', hc', rfl⟩ | ⟨hno, -⟩
  · obtain ⟨rfl, rfl⟩ := hc.unique hc'; rfl
  · exact absurd hc.meetsFault hno

/-- Settles O13: a step that ends Faulted is the latch alone, and `step` answers the latched fault there. -/
theorem faultsChangeOnlyTheStatus : Obligations.FaultsChangeOnlyTheStatus := by
  intro s t k info h ht
  obtain ⟨hrun, i, -, heff⟩ := step_effect h
  obtain ⟨-, rfl⟩ := heff.of_faulted hrun ht
  exact ⟨rfl, rfl, rfl, rfl, rfl, step_faulted ht⟩

theorem faultCause_divideByZero_iff : FaultCause s i .divideByZero info ↔
    ∃ (a b : Byte) (m n : RegIdx), i = .div a b ∧ a.toNat = m.val ∧ b.toNat = n.val ∧
      (s.getReg n).toNat = 0 ∧ info = s.pc := by
  constructor
  · intro h
    cases h with
    | divideByZero ha hb h0 => exact ⟨_, _, _, _, rfl, ha, hb, congrArg BitVec.toNat h0, rfl⟩
  · rintro ⟨a, b, m, n, rfl, ha, hb, h0, rfl⟩
    exact .divideByZero ha hb (BitVec.eq_of_toNat_eq h0)

theorem faultCause_aluDecode_iff : FaultCause s i .aluDecode info ↔ i = .unrecognisedAlu info := by
  constructor
  · intro h; cases h; rfl
  · rintro rfl; exact .aluDecode info

theorem faultCause_registerIndex_iff : FaultCause s i .registerIndex info ↔
    (accessedRegs s i).find? (fun b => decide (7 < b.toNat)) = some info := by
  constructor
  · intro h; cases h; assumption
  · exact .registerIndex

/-- Settles O14: the cause of `DivideByZero`, and the latch alone after it. -/
theorem divideByZeroExactlyOnZeroDivisor : Obligations.DivideByZeroExactlyOnZeroDivisor := by
  intro i s t info hrun h
  refine ⟨((exec_effect h).faulted_iff hrun).trans faultCause_divideByZero_iff, fun ht m => ?_⟩
  obtain ⟨-, rfl⟩ := (exec_effect h).of_faulted hrun ht
  rfl

/-- Settles O15: the causes of `AluDecode` and of `RegisterIndex`. -/
theorem decodeAndIndexFaultsInPriorityOrder : Obligations.DecodeAndIndexFaultsInPriorityOrder := by
  intro i s t info hrun h
  have heff := exec_effect h
  exact ⟨(heff.faulted_iff hrun).trans faultCause_aluDecode_iff,
    (heff.faulted_iff hrun).trans faultCause_registerIndex_iff⟩

/-! ## The contract (70_reset_and_hazards.md R173) -/

/-- Settles O42: the contract rules out every condition of R150, so the status after the step is Halted on HLT and
Running otherwise. -/
theorem contractStepCannotFault : Obligations.ContractStepCannotFault := by
  intro s hrun hkeep
  obtain ⟨t, hstep⟩ := step_next hrun
  obtain ⟨-, hhalt, -, hcont⟩ := statusChangesOnlyByHaltOrFault s t hstep
  refine ⟨t, hstep, ?_⟩
  by_cases hi : s.fetchInstr = .hlt
  · exact .inr ⟨hhalt.mpr hi, hi⟩
  · exact .inl ⟨hcont.mpr ⟨hi, hkeep.not_meetsFault⟩, hi⟩

/-- HLT leaves pc and memory, so that the halted engine still addresses it (R111). -/
theorem fetchInstr_of_step_hlt (hi : s.fetchInstr = .hlt) (h : step s = .next t) : t.fetchInstr = .hlt := by
  rw [step_running (running_of_step h), hi, exec_hlt_eq] at h
  cases h
  exact hi

/-- Along a run whose every step keeps the contract, the engine is Running, or Halted at an HLT. -/
theorem running_or_halted_of_reaches {s₀ : State} (hsafe : ∀ t, Reaches s₀ t → t.status = .running → KeepsContract t)
    (hrun : s₀.status = .running) (h : Reaches s₀ t) :
    t.status = .running ∨ t.status = .halted ∧ t.fetchInstr = .hlt := by
  cases h with
  | refl => exact .inl hrun
  | @step t u hreach hstep =>
    have htrun := running_of_step hstep
    obtain ⟨u', hstep', hu⟩ := contractStepCannotFault t htrun (hsafe t hreach htrun)
    obtain rfl := next_inj (hstep'.symm.trans hstep)
    rcases hu with ⟨hu, -⟩ | ⟨hu, hi⟩
    · exact .inl hu
    · exact .inr ⟨hu, fetchInstr_of_step_hlt hi hstep⟩

/-- Settles O19: the invariant of the run from reset, and clause (c) of the contract at each Running state. -/
theorem contractRulesOutFaults : Obligations.ContractRulesOutFaults := by
  intro img hsafe t hreach
  have hinv := running_or_halted_of_reaches hsafe rfl hreach
  refine ⟨hinv.imp_right And.left, fun hrun op hi => ?_, fun hhalt => ?_⟩
  · obtain ⟨-, -, hdef, -⟩ := hsafe t hreach hrun
    rw [hi] at hdef
    cases hdef
  · rcases hinv with hrun | ⟨-, hi⟩
    · cases hhalt.symm.trans hrun
    · exact hi

end Sys2Proof.Machine
end

section
/-! What every step keeps: FL one of the four values of R30, memory in its canonical form (log entry 2); and the
frames of memory (20_memory.md R40, R45), of the registers (10_state.md R24) and of the output (D17). -/

namespace Sys2Proof.Machine

variable {s t : State} {i : Instr} {b : Byte}

/-! ## FL over time -/

/-- A comparison leaves exactly one of E, G, L (R28, R127). -/
theorem compareFlags_toNat_mem (a b : Byte) : (compareFlags a b).toNat ∈ [1, 2, 4] := by
  unfold compareFlags
  split
  · decide
  · split
    · decide
    · decide

/-- The model's check of FL is the list of R30. -/
theorem legalFlags_iff (f : Byte) : legalFlags f = true ↔ f.toNat ∈ [0, 1, 2, 4] := by
  revert f; decide

/-- FL is kept, or it holds the result of a comparison. -/
theorem exec_fl_cases (h : exec i s = .next t) : t.fl = s.fl ∨ t.fl.toNat ∈ [1, 2, 4] := by
  cases exec_effect h
  case cmp => exact .inr (compareFlags_toNat_mem _ _)
  all_goals exact .inl rfl

theorem exec_of_step (h : step s = .next t) : exec s.fetchInstr s = .next t := by
  rwa [step_running (running_of_step h)] at h

/-- FL of a step's end: one of R30's values, and not zero unless it was zero before. -/
theorem step_fl_mem (hs : s.fl.toNat ∈ [0, 1, 2, 4]) (h : step s = .next t) :
    t.fl.toNat ∈ [0, 1, 2, 4] ∧ (s.fl.toNat ≠ 0 → t.fl.toNat ≠ 0) := by
  rcases exec_fl_cases (exec_of_step h) with hfl | hfl
  · rw [hfl]; exact ⟨hs, id⟩
  · refine ⟨List.mem_cons_of_mem 0 hfl, fun _ h0 => ?_⟩
    rw [h0] at hfl
    exact absurd hfl (by decide)

/-- Settles O12: FL is kept or holds a comparison; a CMP that ends Running has compared. -/
theorem flagsAreOneHotAfterACompare : Obligations.FlagsAreOneHotAfterACompare := by
  refine ⟨fun s t => step_fl_mem, fun s t a b hfetch hstep hrun => ?_⟩
  have hexec := exec_of_step hstep
  rw [hfetch] at hexec
  cases exec_effect hexec
  case raised => cases hrun
  case cmp => exact compareFlags_toNat_mem _ _

/-! ## The invariant -/

/-- Every effect keeps the memory as it is, or makes one store. -/
theorem exec_mem_wf (hs : Memory.wf s.mem = true) (h : exec i s = .next t) : Memory.wf t.mem = true := by
  cases exec_effect h
  case push | call => exact Memory.wf_write (BitVec.isLt _) hs
  all_goals exact hs

/-- Settles O9: a store keeps the canonical form, and FL stays in R30's list. -/
theorem everyStepKeepsTheInvariant : Obligations.EveryStepKeepsTheInvariant := by
  rintro s t ⟨hmem, hfl⟩ h
  refine ⟨exec_mem_wf hmem (exec_of_step h), (legalFlags_iff _).mpr ?_⟩
  exact (step_fl_mem ((legalFlags_iff _).mp hfl) h).1

/-- An accepted image fits, and the new state is the reset state with it (50_interfaces.md R142). -/
theorem applyReset_of_le {img : List Byte} (s : State) (h : img.length ≤ Config.memSize) :
    applyReset img s = .next (State.resetWith img) :=
  if_pos h

theorem applyReset_of_gt {img : List Byte} (s : State) (h : Config.memSize < img.length) :
    applyReset img s = .refused .imageTooLong :=
  if_neg (Nat.not_le.mpr h)

theorem resetWith_inv {img : List Byte} (h : img.length ≤ Config.memSize) : (State.resetWith img).Inv :=
  ⟨loadFrom_wf (by omega) State.reset_mem_wf, rfl⟩

/-- Settles O10: loading an image that fits keeps the canonical form; a longer one is refused. -/
theorem resetMeetsTheInvariant : Obligations.ResetMeetsTheInvariant := by
  refine ⟨⟨State.reset_mem_wf, rfl⟩, fun img s t h => ?_⟩
  rcases Nat.lt_or_ge Config.memSize img.length with hgt | hle
  · cases (applyReset_of_gt s hgt).symm.trans h
  · rw [applyReset_of_le s hle] at h
    exact next_inj h ▸ resetWith_inv hle

/-! ## Memory -/

/-- A PUSH or a CALL keeps every byte but the one at the decremented stack pointer; the others keep all of them. -/
theorem exec_mem_frame (h : exec i s = .next t) :
    (MemKeptExcept s.pushAddress s t ∧ ∃ r, i = .push r ∨ i = .call r) ∨ MemKept s t := by
  cases exec_effect h
  case push r _ _ => exact .inl ⟨State.writeMem_memKept _ _ _, r, .inl rfl⟩
  case call r _ _ => exact .inl ⟨State.writeMem_memKept _ _ _, r, .inr rfl⟩
  all_goals exact .inr fun _ => rfl

/-- Settles O17: a byte that changed is the one that PUSH or CALL may write. -/
theorem onlyPushAndCallWriteMemory : Obligations.OnlyPushAndCallWriteMemory := by
  intro s t a h hne
  rcases exec_mem_frame (exec_of_step h) with ⟨hkept, hi⟩ | hkept
  · have ha : a = s.pushAddress := by_contra fun ha => hne (hkept a ha)
    exact ⟨ha ▸ State.pushAddress_toNat s, ha, hi⟩
  · exact absurd (hkept a) hne

/-! ## Registers -/

/-- A register that an operand byte does not name is none of those it names. -/
theorem not_mem_singleton_of_beq {r : Byte} {m j : RegIdx} (h : r.toNat = m.val) (hw : (r.toNat == j.val) = false) :
    j ∉ [m] := by
  intro hj
  obtain rfl : j = m := by simpa using hj
  simp [h] at hw

theorem not_mem_spIndex_of_beq {j : RegIdx} (hw : (j == Config.spIndex) = false) : j ∉ [(7 : RegIdx)] := by
  simpa [Config.spIndex] using hw

/-- Settles O18: by cases on the effect, the frame of the registers it writes. -/
theorem onlyTheListedRegistersChange : Obligations.OnlyTheListedRegistersChange := by
  intro i s t j h hw
  cases exec_effect h
  case ldi hr => exact State.setReg_regsKept _ _ _ j (not_mem_singleton_of_beq hr hw)
  case add ha _ | sub ha _ | mul ha _ | div ha _ _ =>
    exact State.setReg_regsKept _ _ _ j (not_mem_singleton_of_beq ha hw)
  case push | call | ret => exact State.setSp_regsKept _ _ j (not_mem_spIndex_of_beq hw)
  case pop hr =>
    obtain ⟨hwr, hwsp⟩ := Bool.or_eq_false_iff.mp hw
    exact (State.setSp_regsKept _ _ j (not_mem_spIndex_of_beq hwsp)).trans
      (State.setReg_regsKept _ _ _ j (not_mem_singleton_of_beq hr hwr))
  all_goals rfl

/-! ## The output stream -/

/-- The state with another output history. -/
def State.setOut (s : State) (o : List Byte) : State := { s with out := o }

@[simp] theorem State.setOut_getReg (o : List Byte) (j : RegIdx) : (s.setOut o).getReg j = s.getReg j := rfl

theorem withReg_setOut {o : List Byte} {k k' : RegIdx → Result}
    (hk : ∀ i, k i = .next t → k' i = .next (t.setOut o)) (h : withReg b s k = .next t) :
    withReg b (s.setOut o) k' = .next (t.setOut o) :=
  withReg_transport (fun u => u.setOut o) (fun _ => rfl) hk h

theorem withRegs_setOut {a : Byte} {o : List Byte} {k k' : RegIdx → RegIdx → Result}
    (hk : ∀ i j, k i j = .next t → k' i j = .next (t.setOut o)) (h : withRegs a b s k = .next t) :
    withRegs a b (s.setOut o) k' = .next (t.setOut o) :=
  withReg_setOut (fun i h => withReg_setOut (hk i) h) h

theorem branchIf_setOut {c : Bool} {r : Byte} {o : List Byte} (h : branchIf c r s = .next t) :
    branchIf c r (s.setOut o) = .next (t.setOut o) := by
  cases c with
  | true => exact withReg_setOut (fun _ h => next_inj h ▸ rfl) h
  | false => exact next_inj h ▸ rfl

/-- Only PRN adds to the output. -/
theorem exec_out_of_ne_prn (hprn : ∀ r, i ≠ .prn r) (h : exec i s = .next t) : t.out = s.out := by
  cases exec_effect h
  case prn => exact absurd rfl (hprn _)
  all_goals rfl

/-- Every instruction but PRN carries the output along unread. -/
theorem exec_setOut_of_ne_prn (hprn : ∀ r, i ≠ .prn r) (o : List Byte) (h : exec i s = .next t) :
    exec i (s.setOut o) = .next (t.setOut o) := by
  cases i
  case prn r => exact absurd rfl (hprn r)
  case ldi | push | pop | call | jmp => exact withReg_setOut (fun _ h => next_inj h ▸ rfl) h
  case jeq | jne => exact branchIf_setOut h
  case add | sub | mul | cmp => exact withRegs_setOut (fun _ _ h => next_inj h ▸ rfl) h
  case div =>
    refine withRegs_setOut (fun m n h => ?_) h
    rw [State.setOut_getReg]
    split at h
    · next h0 => rw [if_pos h0, next_inj h]; rfl
    · next h0 => rw [if_neg h0, next_inj h]; rfl
  case hlt | ret | unrecognisedAlu | unrecognisedNonAlu => exact next_inj h ▸ rfl

/-- PRN with a valid index, as one equation (R101). -/
theorem exec_prn_eq {r : Byte} {j : RegIdx} (s : State) (h : r.toNat = j.val) :
    exec (.prn r) s = .next ((s.emit (s.getReg j)).advance 2) :=
  withReg_names _ h

/-- PRN with an index above 7 latches the fault and emits nothing (R101). -/
theorem exec_prn_raises {r : Byte} (s : State) (h : 7 < r.toNat) :
    exec (.prn r) s = .next (s.setStatus (.faulted .registerIndex r)) :=
  withReg_raises _ h

/-- Settles O16: PRN by its two equations, of which one emits; the other instructions carry the output along. -/
theorem outputIsAppendOnlyAndUnreadable : Obligations.OutputIsAppendOnlyAndUnreadable := by
  intro i s t h
  by_cases hprn : ∃ r, i = .prn r
  · obtain ⟨r, rfl⟩ := hprn
    rcases byte_cases r with hr | ⟨j, hj⟩
    · rw [exec_prn_raises s hr] at h
      obtain rfl := next_inj h
      refine ⟨[], (List.append_nil _).symm, .inl rfl, fun o => ?_⟩
      rw [exec_prn_raises _ hr, List.append_nil]
      rfl
    · rw [exec_prn_eq s hj] at h
      obtain rfl := next_inj h
      exact ⟨[s.getReg j], rfl, .inr ⟨r, j, rfl, hj, rfl⟩, fun o => exec_prn_eq _ hj⟩
  · have hprn : ∀ r, i ≠ .prn r := fun r hi => hprn ⟨r, hi⟩
    refine ⟨[], (exec_out_of_ne_prn hprn h).trans (List.append_nil _).symm, .inl rfl, fun o => ?_⟩
    rw [List.append_nil]
    exact exec_setOut_of_ne_prn hprn o h

end Sys2Proof.Machine
end

section
/-! Reset with an image (10_state.md R37, 50_interfaces.md R141, R142), and a table word stored where the engine
fetches (log entry 16). -/

namespace Sys2Proof.Machine

/-! ## Reset -/

/-- Registers after reset: SP preset, the others zero (R37). -/
theorem reset_getReg (j : RegIdx) : State.reset.getReg j = if j = 7 then 0xF4 else 0 := by
  revert j; decide

/-- A cell after reset: the image where it lies, zero past its end (R37, R141). -/
theorem resetWith_readMem (img : List Byte) (a : Byte) : (State.resetWith img).readMem a = img.getD a.toNat 0 := by
  refine (read_loadFrom img 0 [] a.toNat).trans ?_
  split
  · rfl
  · next h =>
    rw [List.getD_eq_default _ _ (by omega)]
    rfl

theorem resetWith_readMem_of_lt {img : List Byte} {a : Byte} (h : a.toNat < img.length) :
    (State.resetWith img).readMem a = img[a.toNat] := by
  rw [resetWith_readMem, List.getD_eq_getElem _ _ h]

theorem resetWith_readMem_of_ge {img : List Byte} {a : Byte} (h : img.length ≤ a.toNat) :
    (State.resetWith img).readMem a = 0 := by
  rw [resetWith_readMem, List.getD_eq_default _ _ h]

/-- Settles O21: the reset state field by field, its memory by what loading leaves in a cell. -/
theorem resetLoadsTheImage : Obligations.ResetLoadsTheImage := by
  refine ⟨fun img s h => ⟨_, applyReset_of_le s h, rfl, rfl, rfl, rfl, rfl, ?regs, ?image, ?rest⟩,
    fun img s => applyReset_of_gt s, applyReset_of_le _ (Nat.zero_le _)⟩
  case regs => exact fun j hj => (reset_getReg j).trans (if_neg hj)
  case image => exact fun a => resetWith_readMem_of_lt
  case rest => exact fun a => resetWith_readMem_of_ge

/-! ## A word at pc -/

/-- The three bytes fetched for a step lie in three cells, at the wrap too. -/
theorem fetch_addresses_ne (a : Byte) : a ≠ a + 1 ∧ a ≠ a + 2 ∧ a + 1 ≠ a + 2 := by
  revert a; decide

/-- What a read gives after the three stores at pc. -/
theorem readMem_storeAtPc (s : State) (b₀ b₁ b₂ a : Byte) : (s.storeAtPc b₀ b₁ b₂).readMem a =
    if a = s.pc + 2 then b₂ else if a = s.pc + 1 then b₁ else if a = s.pc then b₀ else s.readMem a := by
  simp only [State.storeAtPc, State.readMem_writeMem, State.pcPlus, add8_eq_add]

/-- The bytes stored at pc are the ones the engine reads there. -/
theorem fetchInstr_storeAtPc (s : State) (b₀ b₁ b₂ : Byte) :
    (s.storeAtPc b₀ b₁ b₂).fetchInstr = decodeFetched b₀ b₁ b₂ := by
  obtain ⟨h01, h02, h12⟩ := fetch_addresses_ne s.pc
  have hpc : (s.storeAtPc b₀ b₁ b₂).pc = s.pc := rfl
  simp only [State.fetchInstr, State.pcPlus, add8_eq_add, hpc, readMem_storeAtPc, h01, h02, h12, if_true, if_false]

/-- A table word is read as the engine reads its three bytes. -/
theorem decodeTableWord_eq (nbits w : Nat) : decodeTableWord nbits w =
    some (decodeFetched (tableByte nbits w 0) (tableByte nbits w 1) (tableByte nbits w 2)) := by
  rw [decodeTableWord, tableBytes, decode_fetched]

theorem step_withFetchWord (s : State) {nbits w : Nat} {i : Instr} (h : decodeTableWord nbits w = some i) :
    step (s.withFetchWord nbits w) = exec i (s.withFetchWord nbits w) := by
  obtain rfl := Option.some.inj ((decodeTableWord_eq nbits w).symm.trans h)
  rw [← fetchInstr_storeAtPc s]
  exact step_running rfl

/-- Settles O22: the engine fetches the stored bytes, and the three stores change no other cell. -/
theorem storedTableWordRunsNext : Obligations.StoredTableWordRunsNext := by
  refine fun s nbits w i h => ⟨step_withFetchWord s h, fun _ _ => rfl, rfl, rfl, rfl, fun a h0 h1 h2 => ?_⟩
  refine (readMem_storeAtPc s _ _ _ a).trans ?_
  rw [if_neg h2, if_neg h1, if_neg h0]

end Sys2Proof.Machine
end

section
/-! PRN, PUSH, POP, CALL, RET (41_data_movement.md R101 to R103, 42_control_flow.md R112, R113): what their bytes
decode to, each step as one equation, and the stack operations undoing one another. -/

namespace Sys2Proof

/-- Opcode `47` is PRN of its first operand byte, whatever follows (30_encoding.md R67). -/
theorem decode_prn (r x : Byte) : decode [0x47, r, x] = .ok (.prn r) := decode_fetched 0x47 r x

/-- Opcode `45` is PUSH of its first operand byte, whatever follows (30_encoding.md R67). -/
theorem decode_push (r x : Byte) : decode [0x45, r, x] = .ok (.push r) := decode_fetched 0x45 r x

/-- Opcode `46` is POP into its first operand byte, whatever follows (30_encoding.md R67). -/
theorem decode_pop (r x : Byte) : decode [0x46, r, x] = .ok (.pop r) := decode_fetched 0x46 r x

/-- Opcode `50` is CALL through its first operand byte, whatever follows (30_encoding.md R67). -/
theorem decode_call (r x : Byte) : decode [0x50, r, x] = .ok (.call r) := decode_fetched 0x50 r x

/-- Opcode `11` with any following bytes is RET (30_encoding.md R67). -/
theorem decode_ret (x y : Byte) : decode [0x11, x, y] = .ok .ret := decode_fetched 0x11 x y

namespace Machine

variable {r : Byte} {i : RegIdx}

/-- Settles O24: the bytes by the decoder, a bad index by the checked operand, and a valid one by PRN's equation. -/
theorem prnEmitsTheRegister : Obligations.PrnEmitsTheRegister := by
  refine ⟨fun r x => ⟨decode_prn r x, rfl⟩, fun r s => withReg_raisesFrom s _,
    fun r i s h => ⟨_, exec_prn_eq s h, rfl, ?pc, fun _ _ => rfl, fun _ => rfl, rfl, rfl⟩⟩
  case pc => exact State.advance_pc_toNat (s.emit _) 2

/-! ## The push that PUSH and CALL share -/

/-- The state with `v` pushed: the stack pointer down by one, and `v` stored there (20_memory.md R45). -/
def State.pushed (s : State) (v : Byte) : State := (s.setSp s.pushAddress).writeMem s.pushAddress v

/-- What PUSH and CALL read from register `i` after the decrement (D14). -/
def State.regAfterPush (s : State) (i : RegIdx) : Byte := if i = 7 then s.pushAddress else s.getReg i

theorem getReg_setSp_pushAddress (s : State) (i : RegIdx) : (s.setSp s.pushAddress).getReg i = s.regAfterPush i :=
  State.getReg_setSp s i _

/-- PUSH with a valid index, as one equation (R102). -/
theorem exec_push_eq (s : State) (h : r.toNat = i.val) :
    exec (.push r) s = .next ((s.pushed (s.regAfterPush i)).advance 2) := by
  rw [← getReg_setSp_pushAddress]
  exact withReg_names _ h

/-- CALL with a valid index, as one equation (R112). -/
theorem exec_call_eq (s : State) (h : r.toNat = i.val) :
    exec (.call r) s = .next ((s.pushed (s.pcPlus 2)).setPc (s.regAfterPush i)) := by
  rw [← getReg_setSp_pushAddress]
  exact withReg_names _ h

variable (s : State) (v : Byte)

@[simp] theorem State.pushed_sp : (s.pushed v).sp = s.pushAddress := State.setSp_sp s _

theorem State.pushed_sp_toNat : (s.pushed v).sp.toNat = ((s.getReg 7).toNat + 255) % 256 := by
  rw [State.pushed_sp, State.pushAddress_toNat]

@[simp] theorem State.pushed_pc : (s.pushed v).pc = s.pc := rfl

theorem State.pushed_getReg (j : RegIdx) : (s.pushed v).getReg j = s.regAfterPush j := State.getReg_setSp s j _

theorem State.pushed_regsKept : RegsKeptExcept [7] s (s.pushed v) :=
  s.setSp_regsKept _

@[simp] theorem State.pushed_readMem_pushAddress : (s.pushed v).readMem s.pushAddress = v :=
  State.readMem_writeMem_self _ _ v

theorem State.pushed_memKept : MemKeptExcept s.pushAddress s (s.pushed v) :=
  State.writeMem_memKept (s.setSp _) _ v

/-- Settles O25: the bytes by the decoder, a bad index by the checked operand, and a valid one by PUSH's equation. -/
theorem pushStoresBelowTheStack : Obligations.PushStoresBelowTheStack := by
  refine ⟨fun r x => ⟨decode_push r x, rfl⟩, fun r s => withReg_raisesFrom s _,
    fun r i s h => ⟨_, exec_push_eq s h, ?spNat, ?sp, ?stored, ?pc, ?regs, ?mem, rfl, rfl, rfl⟩⟩
  case sp => exact s.pushed_sp (s.regAfterPush i)
  case spNat => exact s.pushed_sp_toNat (s.regAfterPush i)
  case stored => exact s.pushed_readMem_pushAddress _
  case pc => exact (s.pushed _).advance_pc_toNat 2
  case regs => exact s.pushed_regsKept (s.regAfterPush i)
  case mem => exact s.pushed_memKept _

/-- Settles O29: as PUSH, by CALL's equation; the stored byte is the advanced pc. -/
theorem callPushesTheReturnAddress : Obligations.CallPushesTheReturnAddress := by
  refine ⟨fun r x => ⟨decode_call r x, rfl⟩, fun r s => withReg_raisesFrom s _,
    fun r i s h => ⟨_, exec_call_eq s h, ?spNat, ?sp, ?stored, rfl, ?regs, ?mem, rfl, rfl, rfl⟩⟩
  case sp => exact s.pushed_sp (s.pcPlus 2)
  case spNat => exact s.pushed_sp_toNat (s.pcPlus 2)
  case stored => exact (congrArg BitVec.toNat (s.pushed_readMem_pushAddress _)).trans (add8_toNat s.pc 2)
  case regs => exact s.pushed_regsKept (s.pcPlus 2)
  case mem => exact s.pushed_memKept _

theorem step_push (hrun : s.status = .running) (hfetch : s.fetchInstr = .push r) (h : r.toNat = i.val) :
    step s = .next ((s.pushed (s.regAfterPush i)).advance 2) := by
  rw [step_running hrun, hfetch, exec_push_eq s h]

/-- Settles O20: in both cases the cell read is the one just pushed to, the first time at the new pc. -/
theorem storeIsSeenByTheNextFetch : Obligations.StoreIsSeenByTheNextFetch := by
  intro s r i hrun hfetch hr
  refine ⟨fun haddr => ⟨_, step_push s hrun hfetch hr, ?_⟩, fun haddr => ⟨_, step_push s hrun hfetch hr, ?_⟩⟩
  · rw [State.advance_pc, State.pushed_pc, add8_eq_add, ← haddr]
    exact s.pushed_readMem_pushAddress _
  · rw [← haddr]
    exact s.pushed_readMem_pushAddress _

/-! ## POP and RET -/

theorem inc8_toNat (a : Byte) : (inc8 a).toNat = (a.toNat + 1) % 256 := add8_toNat a 1

/-- The state with the top of the stack in register `i`, and then the stack pointer up by one (R103). -/
def State.popped (s : State) (i : RegIdx) : State :=
  (s.setReg i (s.readMem s.sp)).setSp (inc8 (s.setReg i (s.readMem s.sp)).sp)

/-- POP with a valid index, as one equation (R103). -/
theorem exec_pop_eq (h : r.toNat = i.val) : exec (.pop r) s = .next ((s.popped i).advance 2) :=
  withReg_names _ h

/-- RET, as one equation (R113). -/
theorem exec_ret_eq : exec .ret s = .next ((s.setPc (s.readMem s.sp)).setSp (inc8 s.sp)) := rfl

theorem State.popped_getReg_of_ne {j : RegIdx} (hj : j ≠ 7) :
    (s.popped i).getReg j = if j = i then s.readMem s.sp else s.getReg j := by
  rw [State.popped, State.getReg_setSp, if_neg hj, State.getReg_setReg]

/-- The stack pointer after a pop into another register. -/
theorem State.popped_sp_of_ne (hi : i ≠ 7) : (s.popped i).sp = inc8 s.sp := by
  have hsp : (s.setReg i (s.readMem s.sp)).sp = s.sp := (s.getReg_setReg i 7 _).trans (if_neg hi.symm)
  rw [State.popped, State.setSp_sp, hsp]

/-- The stack pointer after a pop into itself: loaded, then incremented (D14). -/
theorem State.popped_seven_sp : (s.popped 7).sp = inc8 (s.readMem s.sp) :=
  (State.setSp_sp _ _).trans (congrArg inc8 (s.getReg_setReg_self 7 _))

theorem State.popped_regsKept : RegsKeptExcept [i, 7] s (s.popped i) := by
  intro j hj
  obtain ⟨hji, hj7⟩ : j ≠ i ∧ j ≠ 7 := by simpa using hj
  rw [State.popped_getReg_of_ne s hj7, if_neg hji]

/-- Settles O26: the bytes by the decoder, a bad index by the checked operand, and a valid one by POP's equation. -/
theorem popLoadsFromTheStack : Obligations.PopLoadsFromTheStack := by
  refine ⟨fun r x => ⟨decode_pop r x, rfl⟩, fun r s => withReg_raisesFrom s _,
    fun r i s h => ⟨_, exec_pop_eq s h, ?other, ?seven, ?pc, ?regs, fun _ => rfl, rfl, rfl, rfl⟩⟩
  case other =>
    intro hi
    exact ⟨(s.popped_getReg_of_ne hi).trans (if_pos rfl),
      (congrArg BitVec.toNat (s.popped_sp_of_ne hi)).trans (inc8_toNat _)⟩
  case seven =>
    rintro rfl
    exact (congrArg BitVec.toNat s.popped_seven_sp).trans (inc8_toNat _)
  case pc => exact (s.popped i).advance_pc_toNat 2
  case regs => exact s.popped_regsKept

/-- Settles O30: RET's equation, field by field. -/
theorem retPopsTheProgramCounter : Obligations.RetPopsTheProgramCounter := by
  refine ⟨decode_ret, rfl, fun s => ⟨_, exec_ret_eq s, rfl, ?sp, ?regs, fun _ => rfl, rfl, rfl, rfl⟩⟩
  case sp => exact (congrArg BitVec.toNat (State.setSp_sp _ _)).trans (inc8_toNat s.sp)
  case regs => exact (s.setPc _).setSp_regsKept _

/-! ## A push undone -/

/-- The increment of the stack pointer undoes the decrement, at the wrap too (D4). -/
theorem State.inc8_regAfterPush (j : RegIdx) :
    (if j = 7 then inc8 (s.regAfterPush 7) else s.regAfterPush j) = s.getReg j := by
  split
  · next hj => rw [hj]; exact inc8_dec8 s.sp
  · next hj => exact if_neg hj

/-- After a push, the increment puts the stack pointer back and so every register. -/
theorem State.setSp_inc8_pushed_getReg (j : RegIdx) :
    ((s.pushed v).setSp (inc8 s.pushAddress)).getReg j = s.getReg j := by
  rw [State.getReg_setSp, State.pushed_getReg]
  exact s.inc8_regAfterPush j

/-- The byte a push stores is the one a pop loads. -/
@[simp] theorem State.pushed_readMem_sp : (s.pushed v).readMem (s.pushed v).sp = v := by
  rw [State.pushed_sp, State.pushed_readMem_pushAddress]

/-- The load puts back what a push from the same register stored, register 7 too (D14). -/
theorem State.setReg_pushed_getReg (i j : RegIdx) :
    ((s.pushed (s.regAfterPush i)).setReg i (s.regAfterPush i)).getReg j = s.regAfterPush j := by
  rw [State.getReg_setReg, State.pushed_getReg]
  split
  · next hj => rw [hj]
  · rfl

/-- A pop of what was pushed from the same register leaves every register as it was. -/
theorem State.popped_pushed_getReg (i j : RegIdx) :
    ((s.pushed (s.regAfterPush i)).popped i).getReg j = s.getReg j := by
  rw [State.popped, State.pushed_readMem_sp, State.sp_eq_getReg, State.getReg_setSp, State.setReg_pushed_getReg,
    State.setReg_pushed_getReg]
  exact s.inc8_regAfterPush j

/-- Settles O27: PUSH's equation, then POP's on its result. -/
theorem pushThenPopRestores : Obligations.PushThenPopRestores := by
  refine fun r i s h => ⟨_, _, exec_push_eq s h, exec_pop_eq _ h, ?regs, ?pc, ?mem, rfl, rfl, rfl⟩
  case regs => exact fun j _ => s.popped_pushed_getReg i j
  case pc =>
    have hpc : (add8 (add8 s.pc 2) 2).toNat = (s.pc.toNat + 4) % 256 := by simp [add8_toNat]
    exact hpc
  case mem => exact s.pushed_memKept _

/-- Settles O31: CALL's equation, then RET's on its result. -/
theorem callThenRetReturns : Obligations.CallThenRetReturns := by
  refine fun r i s h => ⟨_, _, exec_call_eq s h, exec_ret_eq _, ?pc, ?regs, ?mem, rfl, rfl, rfl⟩
  case pc => exact (congrArg BitVec.toNat (s.pushed_readMem_sp _)).trans (add8_toNat s.pc 2)
  case regs => exact fun j _ => s.setSp_inc8_pushed_getReg (s.pcPlus 2) j
  case mem => exact s.pushed_memKept _

end Machine
end Sys2Proof
end

section
/-! JEQ, JNE (42_control_flow.md R115, R116), DIV, CMP (43_alu.md R126, R127), and one register as both operands
(R128). -/

namespace Sys2Proof

/-- Opcode `55` is JEQ through its first operand byte, whatever follows (30_encoding.md R67). -/
theorem decode_jeq (r x : Byte) : decode [0x55, r, x] = .ok (.jeq r) := decode_fetched 0x55 r x

/-- Opcode `56` is JNE through its first operand byte, whatever follows (30_encoding.md R67). -/
theorem decode_jne (r x : Byte) : decode [0x56, r, x] = .ok (.jne r) := decode_fetched 0x56 r x

/-- Opcode `A3` with any operand bytes is DIV (30_encoding.md R68). -/
theorem decode_div (a b : Byte) : decode [0xA3, a, b] = .ok (.div a b) := decode_fetched 0xA3 a b

/-- Opcode `A7` with any operand bytes is CMP (30_encoding.md R68). -/
theorem decode_cmp (a b : Byte) : decode [0xA7, a, b] = .ok (.cmp a b) := decode_fetched 0xA7 a b

namespace Machine

/-! ## Conditional jumps -/

/-- A taken conditional jump is JMP (R114). -/
theorem exec_branch_taken {i : Instr} {r : Byte} {s : State}
    (h : i = .jeq r ∧ s.flagE = true ∨ i = .jne r ∧ s.flagE = false) : exec i s = exec (.jmp r) s := by
  rcases h with ⟨rfl, hE⟩ | ⟨rfl, hE⟩
  · change branchIf s.flagE r s = _
    rw [hE]; rfl
  · change branchIf (!s.flagE) r s = _
    rw [hE]; rfl

/-- A conditional jump that is not taken advances over its two bytes, whatever the operand byte is. -/
theorem exec_branch_not_taken {i : Instr} {r : Byte} {s : State}
    (h : i = .jeq r ∧ s.flagE = false ∨ i = .jne r ∧ s.flagE = true) : exec i s = .next (s.advance 2) := by
  rcases h with ⟨rfl, hE⟩ | ⟨rfl, hE⟩
  · rw [exec, execJeq, hE]; rfl
  · rw [exec, execJne, hE]; rfl

/-- Settles O33: taken, by what is settled of JMP; not taken, by the advance. -/
theorem conditionalJumpsFollowBitE : Obligations.ConditionalJumpsFollowBitE := by
  refine ⟨fun r x => ⟨decode_jeq r x, rfl, decode_jne r x, rfl⟩, fun i r s => ⟨fun h => ?taken, fun h => ?notTaken⟩⟩
  case taken =>
    obtain ⟨-, hraises, hjumps⟩ := jmpSetsThePcFromTheRegister
    rw [exec_branch_taken h]
    exact ⟨hraises r s, fun j hj => hjumps r j s hj⟩
  case notTaken =>
    exact ⟨_, exec_branch_not_taken h, s.advance_pc_toNat 2, fun _ _ => rfl, fun _ => rfl, rfl, rfl, rfl⟩

/-! ## DIV -/

variable {a b : Byte} {m n : RegIdx}

/-- DIV with valid indices and a divisor, as one equation (R126). -/
theorem exec_div_eq (s : State) (ha : a.toNat = m.val) (hb : b.toNat = n.val) (h0 : (s.getReg n).toNat ≠ 0) :
    exec (.div a b) s = .next ((s.setReg m (div8 (s.getReg m) (s.getReg n))).advance 3) :=
  (withRegs_names _ ha hb).trans (if_neg fun h => h0 (congrArg BitVec.toNat h))

/-- DIV by zero raises once both indices are valid (R126, R151). -/
theorem exec_div_zero (s : State) (ha : a.toNat ≤ 7) (hb : b.toNat = n.val) (h0 : (s.getReg n).toNat = 0) :
    exec (.div a b) s = raise .divideByZero s.pc s :=
  (withRegs_names (i := ⟨a.toNat, by omega⟩) _ rfl hb).trans (if_pos (BitVec.eq_of_toNat_eq h0))

theorem exec_div_zero_raisesFrom (s : State) (ha : a.toNat ≤ 7) (hb : b.toNat = n.val) (h0 : (s.getReg n).toNat = 0) :
    RaisesFrom (exec (.div a b) s) .divideByZero s.pc s :=
  exec_div_zero s ha hb h0 ▸ raise_raisesFrom _ _ _

/-- Settles O37: the bytes by the decoder, the index checks, the zero divisor, and DIV's equation, whose result is
the quotient of natural numbers. -/
theorem divGivesTheFloorQuotient : Obligations.DivGivesTheFloorQuotient := by
  refine ⟨fun a b => ⟨decode_div a b, rfl⟩, fun a b s => withRegs_raisesFrom_left s _,
    fun a b s => withRegs_raisesFrom_right s _, fun a b n s => exec_div_zero_raisesFrom s,
    fun a b m n s ha hb h0 => ⟨_, exec_div_eq s ha hb h0, ?lower, ?upper, ?pc, ?regs, fun _ => rfl, rfl, rfl, rfl⟩⟩
  case lower =>
    rw [State.advance_getReg, State.getReg_setReg_self, div8_toNat]
    exact Nat.div_mul_le_self _ _
  case upper =>
    rw [State.advance_getReg, State.getReg_setReg_self, div8_toNat]
    exact Nat.lt_mul_of_div_lt (Nat.lt_succ_self _) (Nat.pos_of_ne_zero h0)
  case pc => exact (s.setReg m _).advance_pc_toNat 3
  case regs => exact s.setReg_regsKept m _

/-! ## CMP -/

theorem compareFlags_of_eq (h : a.toNat = b.toNat) : (compareFlags a b).toNat = 1 := by
  rw [compareFlags, if_pos (BitVec.eq_of_toNat_eq h)]; rfl

theorem compareFlags_of_gt (h : b.toNat < a.toNat) : (compareFlags a b).toNat = 2 := by
  rw [compareFlags, if_neg (fun hab => h.ne (congrArg BitVec.toNat hab.symm)), if_pos h]; rfl

theorem compareFlags_of_lt (h : a.toNat < b.toNat) : (compareFlags a b).toNat = 4 := by
  rw [compareFlags, if_neg (fun hab => h.ne (congrArg BitVec.toNat hab)), if_neg h.asymm]; rfl

/-- Settles O38: the bytes by the decoder, the index checks, and CMP's equation with the three orders. -/
theorem cmpSetsExactlyOneFlag : Obligations.CmpSetsExactlyOneFlag := by
  refine ⟨fun a b => ⟨decode_cmp a b, rfl⟩, fun a b s => withRegs_raisesFrom_left s _,
    fun a b s => withRegs_raisesFrom_right s _, fun a b m n s ha hb => ⟨_, exec_cmp_eq s ha hb, compareFlags_of_eq,
      compareFlags_of_gt, compareFlags_of_lt, ?pc, fun _ _ => rfl, fun _ => rfl, rfl, rfl⟩⟩
  case pc => exact (s.setFl _).advance_pc_toNat 3

/-! ## One register as both operands -/

/-- Settles O39: the two-register equations with the same register twice. -/
theorem sameRegisterAsBothOperands : Obligations.SameRegisterAsBothOperands := by
  refine fun a m s ha => ⟨⟨_, arith_eq add8 s ha ha, ?double⟩, ⟨_, arith_eq sub8 s ha ha, ?clear⟩,
    ⟨_, arith_eq mul8 s ha ha, ?square⟩, fun h0 => ⟨_, exec_div_eq s ha ha h0, ?one⟩,
    exec_div_zero_raisesFrom s (byte_names_le ha) ha, _, exec_cmp_eq s ha ha, compareFlags_of_eq rfl⟩
  case double => rw [State.advance_getReg, State.getReg_setReg_self, add8_toNat, Nat.two_mul]
  case clear => rw [State.advance_getReg, State.getReg_setReg_self, sub8_toNat, Nat.add_sub_cancel_left]
  case square => rw [State.advance_getReg, State.getReg_setReg_self, mul8_toNat, Nat.pow_two]
  case one =>
    rw [State.advance_getReg, State.getReg_setReg_self, div8_toNat, Nat.div_self (Nat.pos_of_ne_zero h0)]

end Machine
end Sys2Proof
end
